-- ==== Sys2Proof/Word.lean ====
section
/-! DEFINITION. The words of `grbl_serial_core`: a byte, a 64-bit command word, a 16-bit string address, a pointer code,
and the ring arithmetic of FIFO indices (00_scope.md R6, R7). -/

namespace Sys2Proof

/-- A byte is an 8-bit unsigned value (R6). -/
abbrev Byte := BitVec 8

/-- A word of the command port, or an event word of a trace (R100, R101). -/
abbrev CmdWord := BitVec 64

/-- An address in `DATA` or `PGM` (R5 `ADDR_W` = 16, R70). -/
abbrev Addr16 := BitVec 16

/-- A Gray pointer code: `W_RX` bits, at most 16 because `C_RX` is at most 65536 (R5, R160). -/
abbrev Code := BitVec 16

/-- `LONG_W`: the width of an integer operand and the depth of the digit stack (R5, R46). -/
def longW : Nat := 32

/-- `ADDR_W`: the width of a string address (R5). -/
def addrW : Nat := 16

/-- The number of byte addresses of a string space, 2^16 (R70). -/
def spaceSize : Nat := 65536

/-- The ring distance `d(a, b)` from `a` forward to `b` in a FIFO of `c` slots (R7). -/
def ringDist (c a b : Nat) : Nat := (c + b - a) % c

/-- The slot after `i` in a FIFO of `c` slots. -/
def ringNext (c i : Nat) : Nat := (i + 1) % c

end Sys2Proof
end

