-- ==== Sys2Proof/Config.lean ====
section
/-! DEFINITION. What an implementation fixes (the parameters of 00_scope.md R5) and what the spec leaves open to the world
outside a step: which agent steps next and what the host does (10_state.md R30, 60_exceptions.md R300). -/

namespace Sys2Proof

/-- `FRAC_PAD`: how PRINT_FLOAT renders the fraction (R5, R251, D12). -/
inductive FracPad where
  | pad3      -- exactly three digits
  | unpadded  -- as PRINT_INT would print it
  deriving DecidableEq, Repr, Inhabited

/-- The parameters of one instance of the block (R5). They are data, carried by the state and changed by no step, so that
a statement over all states is a statement over all instances (log 4). -/
structure Config where
  /-- `C_RX`, the receive FIFO's capacity in slots. -/
  cRx : Nat
  /-- `C_TX`, the transmit FIFO's capacity in slots. -/
  cTx : Nat
  /-- `F_CLK`, the controller clock in Hz. -/
  fClk : Nat
  /-- `FRAC_PAD`. -/
  fracPad : FracPad
  /-- `SYNC_STAGES`, the flip-flops per synchroniser; no rule depends on it. -/
  syncStages : Nat
  deriving DecidableEq, Repr

/-- The values R5 gives: 150, 50, PAD3 and 2. `F_CLK` is OPEN there; 16 000 000 is the value of the spec's vectors.
DESIGN CHOICE, unsafe to lean on (log 4): no statement rests on it. -/
def Config.reference : Config :=
  { cRx := 150, cTx := 50, fClk := 16000000, fracPad := .pad3, syncStages := 2 }

/-- The five agents (R30). -/
inductive Agent where
  | fg   -- the foreground: issues commands
  | rxp  -- the receive handler
  | txc  -- the transmit-ready handler
  | sh   -- the head synchroniser
  | st   -- the tail synchroniser
  deriving DecidableEq, Repr, Inhabited

/-- The two string spaces (R70). -/
inductive Space where
  | data
  | pgm
  deriving DecidableEq, Repr, Inhabited

/-- What the host may do between two steps of the block (R300). -/
inductive HostMove where
  | offer (b : Byte)  -- offer one byte to the receiver
  | ready             -- make the line ready
  | busy              -- keep the line not ready
  deriving DecidableEq, Repr, Inhabited

/-- Who moves next: an agent of the block, or the host. -/
inductive Turn where
  | agent (a : Agent)
  | host (m : HostMove)
  deriving DecidableEq, Repr, Inhabited

/-- FREE VALUE: the turn taken when the state fixes none. R30: "Any enabled agent may be the one to step"; R300: the host
may move at any time. Nothing can be proved about its values (log 1). -/
opaque Config.freeTurn : Nat → Turn

end Sys2Proof
end

