-- ==== Sys2Proof/Syntax.lean ====
section
/-! DEFINITION. The commands and events of `grbl_serial_core`: one constructor for each row of spec/opcode_table.json
(30_encoding.md R103), with its operands assembled as R102 says. -/

namespace Sys2Proof

/-- A command of the command port (the first eleven) or an event of an agent (the last four), with its operands. -/
inductive Instr where
  /-- AVAILABLE, form `none` (R131). -/
  | available
  /-- READ, form `none` (R132). -/
  | read
  /-- FLUSH, form `none` (R133). -/
  | flush
  /-- WRITE, form `u8` (R180). -/
  | write (b : Byte)
  /-- BEGIN, form `u32` (R201). -/
  | beginUart (baud : BitVec 32)
  /-- PRINT_BYTE, form `u8` (R210). -/
  | printByte (b : Byte)
  /-- PRINT_STRING, form `addr16`, in `DATA` (R211). -/
  | printString (a : Addr16)
  /-- PRINT_PGM_STRING, form `addr16`, in `PGM` (R212). -/
  | printPgmString (a : Addr16)
  /-- PRINT_INT_BASE, form `u32, base8` (R232). -/
  | printIntBase (m : BitVec 32) (base : BitVec 8)
  /-- PRINT_INT, form `s32`: the 32 bits, read as two's complement (R233). -/
  | printInt (n : BitVec 32)
  /-- PRINT_FLOAT, form `f32`: the 32 bits, read as binary32 (R250, R252). -/
  | printFloat (x : BitVec 32)
  /-- RX_PUSH, form `u8`, an event of RXP (R130). -/
  | rxPush (b : Byte)
  /-- TX_DRAIN, form `none`, an event of TXC (R184). -/
  | txDrain
  /-- SYNC_HEAD, form `none`, an event of SH (R164). -/
  | syncHead
  /-- SYNC_TAIL, form `none`, an event of ST (R165). -/
  | syncTail
  deriving DecidableEq, Repr

end Sys2Proof
end

