-- ==== Sys2Proof/WellFormed.lean ====
section
/-! DEFINITION. What is well formed: an instance of the block (the constraints of 00_scope.md R5, U4) and an instruction
with respect to the agent that issues it (the roles of 60_exceptions.md R290, 30_encoding.md R103). The operands' widths
are carried by their types. -/

namespace Sys2Proof

/-- `C_RX` is even: no cyclic one-bit code has an odd length (R5, R161). -/
def Config.rxEven (c : Config) : Bool := c.cRx % 2 == 0

/-- 2 <= `C_RX` <= 65536 (R5). -/
def Config.rxRange (c : Config) : Bool := decide (2 ≤ c.cRx) && decide (c.cRx ≤ 65536)

/-- 2 <= `C_TX` <= 65536 (R5). -/
def Config.txRange (c : Config) : Bool := decide (2 ≤ c.cTx) && decide (c.cTx ≤ 65536)

/-- 16 <= `F_CLK` < 2^32 (R5). -/
def Config.clkRange (c : Config) : Bool := decide (16 ≤ c.fClk) && decide (c.fClk < 4294967296)

/-- The parameters meet R5's constraints (R312 item 1). -/
def Config.valid (c : Config) : Bool := c.rxEven && c.rxRange && c.txRange && c.clkRange

/-- The one agent that issues an instruction (R103 "issued by"). -/
def Instr.issuer : Instr → Agent
  | .available => .fg
  | .read => .fg
  | .flush => .fg
  | .write _ => .fg
  | .beginUart _ => .fg
  | .printByte _ => .fg
  | .printString _ => .fg
  | .printPgmString _ => .fg
  | .printIntBase _ _ => .fg
  | .printInt _ => .fg
  | .printFloat _ => .fg
  | .rxPush _ => .rxp
  | .txDrain => .txc
  | .syncHead => .sh
  | .syncTail => .st

/-- `i` is well formed for the agent `a`: it is in `a`'s role (R290). -/
def Instr.wellFormedFor (a : Agent) (i : Instr) : Bool := i.issuer == a

end Sys2Proof
end

