-- ==== Sys2Proof/Decode.lean ====
section
/-! DEFINITION. 30_encoding.md: the fields of a word (R102), the opcode map (R103), the decoder of the command port
(R104), the decoder of event words (R105), and the encoder written from the same tables. -/

namespace Sys2Proof

/-- Why a word spells no command (60_exceptions.md R282). -/
inductive RefuseReason where
  | eventOnCommandPort  -- `OP[7]` = 1 on the command port
  | illegalOpcode       -- OP is not in 0x01 to 0x0B
  | reservedNonzero     -- a bit outside the row's operand fields is 1
  deriving DecidableEq, Repr

/-- The codes of R282. -/
def RefuseReason.code : RefuseReason → Nat
  | .eventOnCommandPort => 1
  | .illegalOpcode => 2
  | .reservedNonzero => 3

/-! ### Fields (R102) -/

/-- OP, `w[63:56]`. -/
def fieldOp (w : CmdWord) : BitVec 8 := w.extractLsb' 56 8

/-- ARG1, `w[55:48]`. -/
def fieldArg1 (w : CmdWord) : BitVec 8 := w.extractLsb' 48 8

/-- RSVD, `w[47:32]`. -/
def fieldRsvd (w : CmdWord) : BitVec 16 := w.extractLsb' 32 16

/-- ARG0, `w[31:0]`. -/
def fieldArg0 (w : CmdWord) : BitVec 32 := w.extractLsb' 0 32

/-- The operand of form `u8`: `ARG0[7:0]`. -/
def operandU8 (w : CmdWord) : Byte := (fieldArg0 w).extractLsb' 0 8

/-- The operand of form `addr16`: `ARG0[15:0]`. -/
def operandAddr16 (w : CmdWord) : Addr16 := (fieldArg0 w).extractLsb' 0 16

/-! ### The opcode map (R103) -/

/-- The operand forms of R102. -/
inductive Form where
  | none
  | u8
  | addr16
  | u32
  | s32
  | f32
  | u32base8
  deriving DecidableEq, Repr

/-- The mask of a form's rows in R103: OP, RSVD and the bits R102 says must be 0. -/
def Form.mask : Form → CmdWord
  | .none => 0xFFFFFFFFFFFFFFFF#64
  | .u8 => 0xFFFFFFFFFFFFFF00#64
  | .addr16 => 0xFFFFFFFFFFFF0000#64
  | .u32 => 0xFFFFFFFF00000000#64
  | .s32 => 0xFFFFFFFF00000000#64
  | .f32 => 0xFFFFFFFF00000000#64
  | .u32base8 => 0xFF00FFFF00000000#64

/-- A row of the opcode map: the opcode, the operand form, the issuer, and the instruction its operands make. -/
structure OpRow where
  code : BitVec 8
  form : Form
  issuer : Agent
  build : CmdWord → Instr

/-- R103's `match`: the opcode in `w[63:56]`, every other bit 0. -/
def OpRow.matchBits (r : OpRow) : CmdWord := r.code ++ 0#56

/-- A word selects a row when `(w AND mask) = match` (R103). -/
def OpRow.selects (r : OpRow) (w : CmdWord) : Bool := (w &&& r.form.mask) == r.matchBits

/-- The rows FG issues (R103, opcodes 0x01 to 0x0B). -/
def commandRows : List OpRow :=
  [ ⟨0x01#8, .none, .fg, fun _ => .available⟩,
    ⟨0x02#8, .none, .fg, fun _ => .read⟩,
    ⟨0x03#8, .none, .fg, fun _ => .flush⟩,
    ⟨0x04#8, .u8, .fg, fun w => .write (operandU8 w)⟩,
    ⟨0x05#8, .u32, .fg, fun w => .beginUart (fieldArg0 w)⟩,
    ⟨0x06#8, .u8, .fg, fun w => .printByte (operandU8 w)⟩,
    ⟨0x07#8, .addr16, .fg, fun w => .printString (operandAddr16 w)⟩,
    ⟨0x08#8, .addr16, .fg, fun w => .printPgmString (operandAddr16 w)⟩,
    ⟨0x09#8, .u32base8, .fg, fun w => .printIntBase (fieldArg0 w) (fieldArg1 w)⟩,
    ⟨0x0A#8, .s32, .fg, fun w => .printInt (fieldArg0 w)⟩,
    ⟨0x0B#8, .f32, .fg, fun w => .printFloat (fieldArg0 w)⟩ ]

/-- The rows with `OP[7]` = 1, each an event of one agent (R101, R103). -/
def eventRows : List OpRow :=
  [ ⟨0x81#8, .u8, .rxp, fun w => .rxPush (operandU8 w)⟩,
    ⟨0x82#8, .none, .txc, fun _ => .txDrain⟩,
    ⟨0x83#8, .none, .sh, fun _ => .syncHead⟩,
    ⟨0x84#8, .none, .st, fun _ => .syncTail⟩ ]

/-! ### Decoding -/

/-- The decoder of the command port, total on every word (R104); its checks stand in R285's order. -/
def decodeCommand (w : CmdWord) : Except RefuseReason Instr :=
  if (fieldOp w).msb then .error .eventOnCommandPort
  else
    match commandRows.find? (fun r => r.code == fieldOp w) with
    | none => .error .illegalOpcode
    | some r => if r.selects w then .ok (r.build w) else .error .reservedNonzero

/-- The event a trace entry of agent `a` with word `w` names; none: the entry is no step of this machine (R105). -/
def decodeEvent (a : Agent) (w : CmdWord) : Option Instr :=
  match eventRows.find? (fun r => r.selects w) with
  | none => none
  | some r => if r.issuer = a then some (r.build w) else none

/-- The event a word names and the agent that issues it, whichever agent that is. -/
def decodeAnyEvent (w : CmdWord) : Option (Agent × Instr) :=
  match eventRows.find? (fun r => r.selects w) with
  | none => none
  | some r => some (r.issuer, r.build w)

/-- The instruction of an opcode-table word: a command as the command port reads it, or an event as a trace reads it. -/
def decodeWord (w : CmdWord) : Option Instr :=
  if (fieldOp w).msb then (decodeAnyEvent w).map Prod.snd
  else
    match decodeCommand w with
    | .ok i => some i
    | .error _ => none

/-- The word whose low `nbits` bits are those of `w`; every bit above is 0. -/
def wordOfTable (nbits w : Nat) : CmdWord := BitVec.ofNat 64 (w % 2 ^ nbits)

/-- The instruction the decoder reads from a word numbered as spec/opcode_table.json numbers it. Byte order does not
arise (20_memory.md R74): a command is one 64-bit word. -/
def decodeTableWord (nbits w : Nat) : Option Instr := decodeWord (wordOfTable nbits w)

/-! ### Encoding -/

/-- OP of an instruction's row (R103). -/
def Instr.code : Instr → BitVec 8
  | .available => 0x01#8
  | .read => 0x02#8
  | .flush => 0x03#8
  | .write _ => 0x04#8
  | .beginUart _ => 0x05#8
  | .printByte _ => 0x06#8
  | .printString _ => 0x07#8
  | .printPgmString _ => 0x08#8
  | .printIntBase _ _ => 0x09#8
  | .printInt _ => 0x0A#8
  | .printFloat _ => 0x0B#8
  | .rxPush _ => 0x81#8
  | .txDrain => 0x82#8
  | .syncHead => 0x83#8
  | .syncTail => 0x84#8

/-- The operand form of an instruction's row (R103). -/
def Instr.form : Instr → Form
  | .available => .none
  | .read => .none
  | .flush => .none
  | .write _ => .u8
  | .beginUart _ => .u32
  | .printByte _ => .u8
  | .printString _ => .addr16
  | .printPgmString _ => .addr16
  | .printIntBase _ _ => .u32base8
  | .printInt _ => .s32
  | .printFloat _ => .f32
  | .rxPush _ => .u8
  | .txDrain => .none
  | .syncHead => .none
  | .syncTail => .none

/-- ARG1 of an instruction: the base of PRINT_INT_BASE, 0 for every other (R102). -/
def Instr.arg1 : Instr → BitVec 8
  | .available => 0#8
  | .read => 0#8
  | .flush => 0#8
  | .write _ => 0#8
  | .beginUart _ => 0#8
  | .printByte _ => 0#8
  | .printString _ => 0#8
  | .printPgmString _ => 0#8
  | .printIntBase _ base => base
  | .printInt _ => 0#8
  | .printFloat _ => 0#8
  | .rxPush _ => 0#8
  | .txDrain => 0#8
  | .syncHead => 0#8
  | .syncTail => 0#8

/-- ARG0 of an instruction (R102). -/
def Instr.arg0 : Instr → BitVec 32
  | .available => 0#32
  | .read => 0#32
  | .flush => 0#32
  | .write b => b.setWidth 32
  | .beginUart baud => baud
  | .printByte b => b.setWidth 32
  | .printString a => a.setWidth 32
  | .printPgmString a => a.setWidth 32
  | .printIntBase m _ => m
  | .printInt n => n
  | .printFloat x => x
  | .rxPush b => b.setWidth 32
  | .txDrain => 0#32
  | .syncHead => 0#32
  | .syncTail => 0#32

/-- The word of an instruction: OP, ARG1, RSVD = 0, ARG0 (R102). -/
def encode (i : Instr) : CmdWord := i.code ++ i.arg1 ++ 0#16 ++ i.arg0

end Sys2Proof
end

