-- ==== Sys2Proof/Machine/GrayCode.lean ====
section
/-! DEFINITION. The Gray pointer code of the receive indices: encoder and decoder (41_gray_counter.md R160, R162). -/

namespace Sys2Proof.Machine

/-- `W_RX` = ceil(log2 C) for C >= 2, so 1 for C = 2 (00_scope.md R5, R160). -/
def pointerWidth (c : Nat) : Nat := Nat.log2 (c - 1) + 1

/-- `off` = (2^W - C) / 2 (R160). -/
def grayOffset (c : Nat) : Nat := (2 ^ pointerWidth c - c) / 2

/-- `g(x)` = x XOR (x >> 1), the reflected binary code (R160). -/
def grayOf (x : Code) : Code := x ^^^ (x >>> 1)

/-- `G_C(i)` = g(i + off) (R160). -/
def grayCode (c i : Nat) : Code := grayOf (BitVec.ofNat 16 (i + grayOffset c))

/-- XOR of code >> k for k from 0 to n - 1 (R162). -/
def grayFold (code : Code) : Nat → Code
  | 0 => 0#16
  | n + 1 => grayFold code n ^^^ (code >>> n)

/-- `G_C_inv(code)`: the index a pointer code stands for (R162). -/
def grayDecode (c : Nat) (code : Code) : Nat := (grayFold code (pointerWidth c)).toNat - grayOffset c

end Sys2Proof.Machine
end

