-- ==== Sys2Proof/Machine/State.lean ====
section
/-! DEFINITION. The architectural state (10_state.md R30 to R51), the reasons a run stops (60_exceptions.md R282, R283),
the memories' type and canonical form, and reset (70_reset_and_hazards.md R310). -/

namespace Sys2Proof.Machine

/-- The fault reasons of R283. An instruction that faults does so in a NEXT state: it sets `mark.fault` and appends to
`hist` (R284, log 3). `step` answers `fault r` from a state so marked: no agent has a further step (R48). All are safe: no
claim about a faulted run's continuation can be proved. -/
inductive Fault where
  /-- PRINT_INT_BASE with a base below 2 (R232). Raised by `execPrintIntBase`; safe. -/
  | badBase
  /-- BEGIN with baud 0, quotient 0, or a divisor above 0xFFFF (R200). Raised by `execBegin`; safe. -/
  | badBaud
  /-- BEGIN when `CTRL.RXEN` = 1 (R201). Raised by `execBegin`; safe. -/
  | rebegin
  /-- PRINT_FLOAT of a NaN or an infinity (R251). Raised by `execPrintFloat`; safe. -/
  | floatNotFinite
  /-- PRINT_FLOAT whose integer part is outside 32-bit two's complement (R251). Raised by `execPrintFloat`; safe. -/
  | floatIntRange
  /-- READ or TX_DRAIN of an unwritten slot (R76). Raised by `execRead` and `execTxDrain`; safe, unreachable from reset. -/
  | unwrittenSlot
  deriving DecidableEq, Repr

/-- The codes of R283. -/
def Fault.code : Fault → Nat
  | .badBase => 16
  | .badBaud => 17
  | .rebegin => 18
  | .floatNotFinite => 19
  | .floatIntRange => 20
  | .unwrittenSlot => 21

/-- Why a step answers no state and no fault. All are safe: nothing can be proved of what follows. -/
inductive Refusal where
  /-- An instruction without a meaning. Raised by no arm of this model; safe. -/
  | notModelled (mnemonic : String)
  /-- The run was refused earlier: `mark.refused` is set, so no agent has a further step (R48, R282). Raised by `step`;
  safe. -/
  | commandRefused (r : RefuseReason)
  /-- The parameters break R5's constraints, so this is no instance of the block (U4, log 5). Raised by `step`; safe. -/
  | notAnInstance
  deriving DecidableEq, Repr

/-! ### Memories -/

/-- A byte store: (address, byte) cells, addresses strictly rising. In a FIFO store an unlisted slot is unwritten (R32,
R37, log 8); in a launch image an unlisted byte reads 0 (log 7). -/
abbrev Memory := List Host.Cell

/-- The cells from address `lo` on stand in strictly rising order, each below `bound`. -/
def Memory.wfFrom (bound : Nat) : Nat → Memory → Bool
  | _, [] => true
  | lo, (a, _) :: m => decide (lo ≤ a) && decide (a < bound) && Memory.wfFrom bound (a + 1) m

/-- The canonical form of a store of `bound` bytes, where an unlisted byte is unwritten: strictly rising, in range. -/
def Memory.wf (bound : Nat) (m : Memory) : Bool := Memory.wfFrom bound 0 m

/-- The canonical form of a launch image: as a store of 2^16 bytes, and no listed byte equal to what an unlisted one
reads as, 0. -/
def Memory.imageWf (m : Memory) : Bool := Memory.wf spaceSize m && m.all (fun c => c.2 != 0#8)

/-! ### The state record -/

/-- The receive FIFO (R32 to R36) and its Gray registers and synchronisers (R163, log 9). -/
structure RxFifo where
  /-- Slots 0 to `C_RX` - 1; unlisted is unwritten (R32). -/
  mem : Memory
  /-- Index of the next slot to write, rx domain (R33). -/
  head : Nat
  /-- Index of the next slot to read, core domain (R34). -/
  tail : Nat
  /-- The core domain's copy of `head` (R35). -/
  headView : Nat
  /-- The rx domain's copy of `tail` (R36). -/
  tailView : Nat
  /-- The head's Gray register, rx domain (R163). -/
  headGray : Code
  /-- The tail's Gray register, core domain (R163). -/
  tailGray : Code
  /-- The flip-flops that sample `headGray`, first stage first (R35, R163). -/
  headSync : List Code
  /-- The flip-flops that sample `tailGray`, first stage first (R36, R163). -/
  tailSync : List Code
  deriving DecidableEq, Repr

/-- The transmit FIFO (R37 to R39), all of it in the core domain. -/
structure TxFifo where
  /-- Slots 0 to `C_TX` - 1; unlisted is unwritten (R37). -/
  mem : Memory
  /-- Index of the next slot to write (R38). -/
  head : Nat
  /-- Index of the next slot to read (R39). -/
  tail : Nat
  deriving DecidableEq, Repr

/-- `CTRL` (R40): its four fields. Bits 7:4 are hardwired 0 and have no storage (log 11). -/
structure Ctrl where
  /-- Bit 0: receiver enabled. -/
  rxen : Bool
  /-- Bit 1: transmitter enabled. -/
  txen : Bool
  /-- Bit 2: receive-complete interrupt enabled. -/
  rxcie : Bool
  /-- Bit 3: transmit-ready interrupt enabled. -/
  txie : Bool
  deriving DecidableEq, Repr

/-- `CTRL` as the 8-bit register R40 lays out. -/
def Ctrl.word (c : Ctrl) : BitVec 8 :=
  0#4 ++ BitVec.ofBool c.txie ++ BitVec.ofBool c.rxcie ++ BitVec.ofBool c.txen ++ BitVec.ofBool c.rxen

/-- `fg.mode` (R43). -/
inductive Mode where
  | idle
  | busy
  deriving DecidableEq, Repr

/-- The foreground record `fg` (R43). -/
structure Foreground where
  /-- Index of the next command word to issue. -/
  pc : Nat
  /-- BUSY while a multi-step command is in progress. -/
  mode : Mode
  /-- Bytes a formatter command has still to enqueue, first byte first. -/
  pending : List Byte
  /-- The next string byte to read. -/
  cursor : Option (Space × Addr16)
  deriving DecidableEq, Repr

/-- The serial line: `line.out` and `line.in` (R47), and the line's readiness, a liberty of the host (R300, D18). -/
structure Line where
  /-- Bytes handed to the transmitter, in order. -/
  out : List Byte
  /-- The host's bytes not yet taken, next byte first (log 12). -/
  inp : List Byte
  /-- The line is ready (log 13). -/
  ready : Bool
  deriving DecidableEq, Repr

/-- An event of `hist` (R47); refusals and faults are recorded with the word and `fg.pc` (R282, R283). -/
inductive Event where
  | rxAccepted (b : Byte)
  | rxDropped (b : Byte)
  | txSent (b : Byte)
  | refused (r : RefuseReason) (w : CmdWord) (pc : Nat)
  | fault (r : Fault) (w : CmdWord) (pc : Nat)
  deriving DecidableEq, Repr

/-- The model marks (R48). -/
structure Mark where
  fault : Option Fault
  refused : Option RefuseReason
  deriving DecidableEq, Repr

/-- The whole state. Field by field: INVENTORY.md, heading State. -/
structure State where
  /-- The instance's parameters (R5); no step writes them. -/
  cfg : Config
  /-- The command program P (R44, R45); no step writes it. -/
  program : List CmdWord
  /-- The launch image of `DATA` (R72); no step writes it. -/
  data : Memory
  /-- The launch image of `PGM` (R72); no step writes it. -/
  pgm : Memory
  /-- The receive FIFO. -/
  rx : RxFifo
  /-- The transmit FIFO. -/
  tx : TxFifo
  /-- `CTRL` (R40). -/
  ctrl : Ctrl
  /-- `UBRR` (R41). -/
  ubrr : BitVec 16
  /-- `RES` (R42). -/
  res : BitVec 16
  /-- Whether `RES` has been written since reset (R42, U1, log 6). -/
  resWritten : Bool
  /-- The foreground (R43). -/
  fg : Foreground
  /-- The serial line (R47). -/
  line : Line
  /-- The event history (R47). -/
  hist : List Event
  /-- The model marks (R48). -/
  mark : Mark
  /-- MODEL'S OWN: turns already fixed, the next one first (log 1). -/
  sched : List Turn
  /-- MODEL'S OWN: how many free turns have been taken (log 1). -/
  turns : Nat
  deriving DecidableEq, Repr

/-- The state right after reset of an instance with parameters `c`, with a program, launch images and host stream
supplied from outside (R310, R312, R316). -/
def State.resetWith (c : Config) (program : List CmdWord) (data pgm : Memory) (inp : List Byte) (ready : Bool)
    (sched : List Turn) (turns : Nat) : State where
  cfg := c
  program := program
  data := data
  pgm := pgm
  rx :=
    { mem := [], head := 0, tail := 0, headView := 0, tailView := 0
      headGray := grayCode c.cRx 0, tailGray := grayCode c.cRx 0
      headSync := List.replicate c.syncStages (grayCode c.cRx 0)
      tailSync := List.replicate c.syncStages (grayCode c.cRx 0) }
  tx := { mem := [], head := 0, tail := 0 }
  ctrl := { rxen := false, txen := false, rxcie := false, txie := false }
  ubrr := 0#16
  res := 0#16
  resWritten := false
  fg := { pc := 0, mode := .idle, pending := [], cursor := none }
  line := { out := [], inp := inp, ready := ready }
  hist := []
  mark := { fault := none, refused := none }
  sched := sched
  turns := turns

/-- The machine right after reset (R310), with the parameters of `Config.reference` (log 4) and nothing supplied from
outside: no program, images of zeros, no byte offered, the line ready, no turn fixed (logs 1, 7, 12, 13, 14). -/
def State.reset : State := State.resetWith Config.reference [] [] [] [] true [] 0

end Sys2Proof.Machine
end

