-- ==== Sys2Proof/Machine/Ops.lean ====
section
/-! DEFINITION. The named operations on memories and state: slot and image bytes (20_memory.md R71, R72), the marks
(10_state.md R48, 60_exceptions.md R282 to R284), the foreground's advance (R44), the history and the line (R47), and
whose turn it is (R30). -/

namespace Sys2Proof.Machine

/-! ### Memories -/

/-- The byte an address lists; none: nothing is listed there, a FIFO slot that is unwritten (R76). -/
def Memory.read : Memory → Nat → Option Byte
  | [], _ => none
  | (a', b) :: m, a => if a' = a then some b else Memory.read m a

/-- Write one byte, keeping the cells in rising order. -/
def Memory.write : Memory → Nat → Byte → Memory
  | [], a, b => [(a, b)]
  | (a', b') :: m, a, b =>
    if a < a' then (a, b) :: (a', b') :: m
    else if a = a' then (a, b) :: m
    else (a', b') :: Memory.write m a b

/-- Remove an address's cell. -/
def Memory.erase : Memory → Nat → Memory
  | [], _ => []
  | (a', b') :: m, a => if a' = a then m else (a', b') :: Memory.erase m a

/-- A byte of a launch image: an unlisted byte is 0 (R72, log 7). -/
def Memory.imageRead (m : Memory) (a : Addr16) : Byte := (Memory.read m a.toNat).getD 0#8

/-- Place one byte of a launch image, before reset (R312): 0 is not listed. -/
def Memory.imageWrite (m : Memory) (a : Addr16) (b : Byte) : Memory :=
  if b = 0#8 then Memory.erase m a.toNat else Memory.write m a.toNat b

/-- `MemRead(sp, a, 1)`: one byte of a string space; no side effect (R72). -/
def State.memRead (s : State) (sp : Space) (a : Addr16) : Byte :=
  match sp with
  | .data => Memory.imageRead s.data a
  | .pgm => Memory.imageRead s.pgm a

/-- Place one byte in a string space, before a run (R312 item 2). No instruction does this. -/
def State.placeByte (s : State) (sp : Space) (a : Addr16) (b : Byte) : State :=
  match sp with
  | .data => { s with data := Memory.imageWrite s.data a b }
  | .pgm => { s with pgm := Memory.imageWrite s.pgm a b }

/-! ### History, line and marks -/

/-- `record(e)`: append an event to `hist` (R9, R47). -/
def State.record (e : Event) (s : State) : State := { s with hist := s.hist ++ [e] }

/-- `emit(b)`: append a byte to `line.out` (R9). -/
def State.emit (b : Byte) (s : State) : State := { s with line := { s.line with out := s.line.out ++ [b] } }

/-- `raise Fault(r)`: what taking a fault does, and all it does (R48, R283, R284): the mark, if none is set, and the
history entry with the word and `fg.pc`. There is no trap entry and no return (R280). -/
def State.raiseFault (r : Fault) (w : CmdWord) (s : State) : State :=
  { s with
    mark := { s.mark with fault := s.mark.fault <|> some r }
    hist := s.hist ++ [.fault r w s.fg.pc] }

/-- `refuse(r)`: what a refused command does, and all it does (R48, R282, R284). -/
def State.refuse (r : RefuseReason) (w : CmdWord) (s : State) : State :=
  { s with
    mark := { s.mark with refused := s.mark.refused <|> some r }
    hist := s.hist ++ [.refused r w s.fg.pc] }

/-! ### The foreground record (R43, R44) -/

/-- A single-step command completes: `fg.pc <- fg.pc + 1`. -/
def State.advance (s : State) : State := { s with fg := { s.fg with pc := s.fg.pc + 1 } }

/-- A multi-step command's last micro-step completes: IDLE, nothing pending, `fg.pc <- fg.pc + 1` (R44, R213). -/
def State.complete (s : State) : State :=
  { s with fg := { pc := s.fg.pc + 1, mode := .idle, pending := [], cursor := none } }

/-- The issue step of a byte-list command: `fg.pending <- bs`, `fg.mode <- BUSY` (R232, R233, R252). -/
def State.startBytes (bs : List Byte) (s : State) : State :=
  { s with fg := { s.fg with mode := .busy, pending := bs } }

/-- The issue step of a string command: `fg.cursor <- (sp, a)`, `fg.mode <- BUSY` (R211, R212). -/
def State.startString (sp : Space) (a : Addr16) (s : State) : State :=
  { s with fg := { s.fg with mode := .busy, cursor := some (sp, a) } }

/-- `fg.pending <- bs`, between two micro-steps (R44). -/
def State.setPending (bs : List Byte) (s : State) : State := { s with fg := { s.fg with pending := bs } }

/-- `fg.cursor <- (sp, a)`, between two micro-steps (R213). -/
def State.setCursor (sp : Space) (a : Addr16) (s : State) : State :=
  { s with fg := { s.fg with cursor := some (sp, a) } }

/-- `RES <- v`: only AVAILABLE and READ write it (R42). -/
def State.writeRes (v : BitVec 16) (s : State) : State := { s with res := v, resWritten := true }

/-- `UBRR <- v`: only BEGIN writes it (R41). -/
def State.writeUbrr (v : BitVec 16) (s : State) : State := { s with ubrr := v }

/-- What the caller gets from `RES`: nothing before the first AVAILABLE or READ completes (R42, U1). -/
def State.readRes (s : State) : Option (BitVec 16) := if s.resWritten then some s.res else none

/-- The word FG issues next, `P[fg.pc]`; none: the program is at its end (R44, R45). -/
def State.commandWord (s : State) : Option CmdWord := s.program[s.fg.pc]?

/-! ### FIFO indices -/

/-- Write `rx.tail`, and load its Gray register in the same step (R163). -/
def State.setRxTail (i : Nat) (s : State) : State :=
  { s with rx := { s.rx with tail := i, tailGray := grayCode s.cfg.cRx i } }

/-- Store a byte at `rx.head` and advance the head, loading its Gray register, in one step (R81, R130, R163). -/
def State.storeRx (b : Byte) (s : State) : State :=
  { s with
    rx :=
      { s.rx with
        mem := Memory.write s.rx.mem s.rx.head b
        head := ringNext s.cfg.cRx s.rx.head
        headGray := grayCode s.cfg.cRx (ringNext s.cfg.cRx s.rx.head) } }

/-- RXP takes the next byte of `line.in` (R130). -/
def State.takeOffered (s : State) : State := { s with line := { s.line with inp := s.line.inp.tail } }

/-- Store a byte at `tx.head` and advance the head (R181). -/
def State.storeTx (b : Byte) (s : State) : State :=
  { s with
    tx :=
      { s.tx with
        mem := Memory.write s.tx.mem s.tx.head b
        head := ringNext s.cfg.cTx s.tx.head } }

/-- Advance `tx.tail` past the byte sent (R184). -/
def State.advanceTxTail (s : State) : State :=
  { s with tx := { s.tx with tail := ringNext s.cfg.cTx s.tx.tail } }

/-- Copy `rx.head` into the core domain's view; every flip-flop then holds the head's code (R163, R164, log 9). -/
def State.syncHeadView (s : State) : State :=
  { s with
    rx := { s.rx with headView := s.rx.head, headSync := List.replicate s.cfg.syncStages s.rx.headGray } }

/-- Copy `rx.tail` into the rx domain's view; every flip-flop then holds the tail's code (R163, R165, log 9). -/
def State.syncTailView (s : State) : State :=
  { s with
    rx := { s.rx with tailView := s.rx.tail, tailSync := List.replicate s.cfg.syncStages s.rx.tailGray } }

/-! ### Whose turn it is (R30, log 1) -/

/-- The next turn: the first one fixed, else a free value. -/
def State.nextTurn (s : State) : Turn :=
  match s.sched with
  | t :: _ => t
  | [] => Config.freeTurn s.turns

/-- The state once its turn is taken. -/
def State.afterTurn (s : State) : State :=
  match s.sched with
  | _ :: ts => { s with sched := ts }
  | [] => { s with turns := s.turns + 1 }

end Sys2Proof.Machine
end

