-- ==== Sys2Proof/Machine/Flags.lean ====
section
/-! DEFINITION. The block's only flags: the enables of `CTRL` (10_state.md R40, R50), what writes them, and the enabling
conditions they make (R30, 60_exceptions.md R286). No operation sets an arithmetic flag (R50). -/

namespace Sys2Proof.Machine

/-- ENQ's and TX_DRAIN's write of `CTRL.TXIE` (R181, R184). -/
def State.setTxie (v : Bool) (s : State) : State := { s with ctrl := { s.ctrl with txie := v } }

/-- BEGIN's write of the three enables; `CTRL.TXIE` is not written (R201). -/
def State.enableUart (s : State) : State :=
  { s with ctrl := { s.ctrl with rxen := true, txen := true, rxcie := true } }

/-- The receive-complete interrupt is enabled: `CTRL.RXEN` = 1 and `CTRL.RXCIE` = 1 (R286). -/
def State.rxEnabled (s : State) : Bool := s.ctrl.rxen && s.ctrl.rxcie

/-- TXC is enabled: `CTRL.TXEN` = 1, `CTRL.TXIE` = 1 and the line is ready (R30, R184). -/
def State.txEnabled (s : State) : Bool := s.ctrl.txen && s.ctrl.txie && s.line.ready

/-- R30's table of enabling conditions. -/
def State.enabled (s : State) : Agent → Bool
  | .fg => decide (s.fg.mode = .busy) || decide (s.fg.pc < s.program.length)
  | .rxp => s.rxEnabled && !s.line.inp.isEmpty
  | .txc => s.txEnabled
  | .sh => true
  | .st => true

end Sys2Proof.Machine
end

