-- ==== Sys2Proof/Machine/Operands.lean ====
section
/-! DEFINITION. The operand forms as values (30_encoding.md R102, 00_scope.md R6): unsigned and two's-complement readings
of ARG0, the base, and the fields and exact magnitude of a binary32 (46_float_to_decimal.md R250). -/

namespace Sys2Proof.Machine

/-- `uint32(v)` (R6). -/
def uint32 (v : BitVec 32) : Nat := v.toNat

/-- `sint32(v)`, in [-2^31, 2^31 - 1] (R6). -/
def sint32 (v : BitVec 32) : Int := v.toInt

/-- `zext_32(ARG1)`, the base of PRINT_INT_BASE (R102). -/
def baseOf (k : BitVec 8) : Nat := k.toNat

/-- A string address advances modulo 2^16 (20_memory.md R73). -/
def nextAddr (a : Addr16) : Addr16 := a + 1#16

/-- `zext_16` of a byte (R6, R132). -/
def byteResult (b : Byte) : BitVec 16 := b.setWidth 16

/-- READ's "no data" result (R132, D8). -/
def noData : BitVec 16 := 0xFFFF#16

/-! ### binary32 (R250) -/

/-- Sign: bit 31. -/
def f32Sign (x : BitVec 32) : Bool := x.msb

/-- Exponent field `e`: bits 30:23. -/
def f32Exp (x : BitVec 32) : Nat := (x.extractLsb' 23 8).toNat

/-- Fraction field `f`: bits 22:0. -/
def f32Frac (x : BitVec 32) : Nat := (x.extractLsb' 0 23).toNat

/-- Not a NaN and not an infinity: `e` is not 255. -/
def f32Finite (x : BitVec 32) : Bool := f32Exp x != 255

/-- Numerator of the exact magnitude of a finite value: `f` at `e` = 0, else (2^23 + f) * 2^(e - 150) when that power is
a whole number. -/
def f32Num (x : BitVec 32) : Nat :=
  if f32Exp x = 0 then f32Frac x else (2 ^ 23 + f32Frac x) * 2 ^ (f32Exp x - 150)

/-- Denominator of the exact magnitude of a finite value: a power of two. -/
def f32Den (x : BitVec 32) : Nat :=
  if f32Exp x = 0 then 2 ^ 149 else 2 ^ (150 - f32Exp x)

end Sys2Proof.Machine
end

