-- ==== Sys2Proof/Machine/TxFifo.lean ====
section
/-! DEFINITION. The transmit FIFO: the ENQ micro-step, WRITE and TX_DRAIN (42_tx_sync_fifo.md R180 to R184). -/

namespace Sys2Proof.Machine

/-- The transmit FIFO is full: advancing the head would make it equal the tail (R181). -/
def State.txFull (s : State) : Bool := ringNext s.cfg.cTx s.tx.head == s.tx.tail

/-- ENQ(b) (R181); none: it holds, and nothing changes. The empty test is made in the step that stores (D16). -/
def State.enq (b : Byte) (s : State) : Option State :=
  if s.txFull then none
  else if s.tx.head = s.tx.tail then some ((s.storeTx b).setTxie true)
  else some (s.storeTx b)

/-- The single step of WRITE and PRINT_BYTE: ENQ(b), and `fg.pc` advances only where it does not hold (R180, R210). -/
def State.sendByte (b : Byte) (s : State) : State :=
  match s.enq b with
  | none => s
  | some t => t.advance

/-- WRITE (R180). -/
def execWrite (b : Byte) (s : State) : Host.Outcome State Fault Refusal := .next (s.sendByte b)

/-- TX_DRAIN (R184). Not enabled: TXC has no step and nothing changes. Empty: `CTRL.TXIE <- 0`. Otherwise the byte at the
tail is sent; an unwritten slot faults (R76). -/
def execTxDrain (s : State) : Host.Outcome State Fault Refusal :=
  if s.txEnabled then
    if s.tx.head = s.tx.tail then .next (s.setTxie false)
    else
      match Memory.read s.tx.mem s.tx.tail with
      | none => .next (s.raiseFault .unwrittenSlot (encode .txDrain))
      | some b => .next ((s.advanceTxTail.emit b).record (.txSent b))
  else .next s

end Sys2Proof.Machine
end

