-- ==== Sys2Proof/Machine/IntFormat.lean ====
section
/-! DEFINITION. Integer to ASCII (45_int_to_ascii.md R230 to R233). -/

namespace Sys2Proof.Machine

/-- The loop of `udigits`: push `m mod base`, divide, until `m` is 0. The stack's top is the list's head; `fuel` is the
stack's capacity (R46, R230). -/
def pushDigits : Nat → Nat → Nat → List Nat → List Nat
  | 0, _, _, stack => stack
  | fuel + 1, m, base, stack =>
    if m = 0 then stack else pushDigits fuel (m / base) base ((m % base) :: stack)

/-- `udigits(m, base)`: the digit values of `m`, most significant first (R230). -/
def udigits (m base : Nat) : List Nat := if m = 0 then [0] else pushDigits longW m base []

/-- `digit_char(d)` (R231): '0' to '9', then from 'A' on, modulo 256. -/
def digitChar (d : Nat) : Byte :=
  if d < 10 then BitVec.ofNat 8 (0x30 + d) else BitVec.ofNat 8 ((0x37 + d) % 256)

/-- `fmt_uint(m, base)` (R231). -/
def fmtUint (m base : Nat) : List Byte := (udigits m base).map digitChar

/-- '-' (00_scope.md R10). -/
def asciiMinus : Byte := 0x2D#8

/-- '.' (00_scope.md R10). -/
def asciiDot : Byte := 0x2E#8

/-- `fmt_int(n)` (R233): '-' and the magnitude, or the magnitude. -/
def fmtInt (n : Int) : List Byte :=
  if n < 0 then asciiMinus :: fmtUint n.natAbs 10 else fmtUint n.natAbs 10

/-- PRINT_INT_BASE, its issue step (R232). -/
def execPrintIntBase (m : BitVec 32) (base : BitVec 8) (s : State) : Host.Outcome State Fault Refusal :=
  if baseOf base < 2 then .next (s.raiseFault .badBase (encode (.printIntBase m base)))
  else .next (s.startBytes (fmtUint (uint32 m) (baseOf base)))

/-- PRINT_INT, its issue step (R233). -/
def execPrintInt (n : BitVec 32) (s : State) : Host.Outcome State Fault Refusal :=
  .next (s.startBytes (fmtInt (sint32 n)))

end Sys2Proof.Machine
end

