-- ==== Sys2Proof/Machine/FloatFormat.lean ====
section
/-! DEFINITION. Float to decimal (46_float_to_decimal.md R250 to R252). The exact magnitude of a finite operand is the
fraction `f32Num x / f32Den x`, so every result is computed in whole numbers. -/

namespace Sys2Proof.Machine

/-- `t` = trunc(x), the integer part, toward zero (R251). -/
def floatInt (x : BitVec 32) : Int :=
  if f32Sign x then -((f32Num x / f32Den x : Nat) : Int) else ((f32Num x / f32Den x : Nat) : Int)

/-- `q` = rha(fr * 1000) with `fr` = |x - t|: floor(fr * 1000 + 1/2) over the common denominator 2 * den (R7, R251). -/
def floatMilli (x : BitVec 32) : Nat :=
  (f32Num x % f32Den x * 2000 + f32Den x) / (2 * f32Den x)

/-- `frac_field(q)` (R251). -/
def fracField (pad : FracPad) (q : Nat) : List Byte :=
  match pad with
  | .pad3 =>
    if q < 1000 then [digitChar (q / 100), digitChar (q / 10 % 10), digitChar (q % 10)] else fmtUint q 10
  | .unpadded => fmtUint q 10

/-- `fmt_float(x)` (R251): FLOAT_NOT_FINITE is tested before FLOAT_INT_RANGE (R285). -/
def fmtFloat (pad : FracPad) (x : BitVec 32) : Except Fault (List Byte) :=
  if f32Finite x then
    if floatInt x < -2147483648 ∨ 2147483647 < floatInt x then .error .floatIntRange
    else .ok (fmtInt (floatInt x) ++ [asciiDot] ++ fracField pad (floatMilli x))
  else .error .floatNotFinite

/-- PRINT_FLOAT, its issue step (R252). A faulting issue step enqueues nothing. -/
def execPrintFloat (x : BitVec 32) (s : State) : Host.Outcome State Fault Refusal :=
  match fmtFloat s.cfg.fracPad x with
  | .error r => .next (s.raiseFault r (encode (.printFloat x)))
  | .ok bs => .next (s.startBytes bs)

end Sys2Proof.Machine
end

