-- ==== Sys2Proof/Machine/GrayCounter.lean ====
section
/-! DEFINITION. The two synchroniser events (41_gray_counter.md R163 to R165). -/

namespace Sys2Proof.Machine

/-- SYNC_HEAD (R164): the core domain's view of the head catches up. -/
def execSyncHead (s : State) : Host.Outcome State Fault Refusal := .next s.syncHeadView

/-- SYNC_TAIL (R165): the rx domain's view of the tail catches up. -/
def execSyncTail (s : State) : Host.Outcome State Fault Refusal := .next s.syncTailView

end Sys2Proof.Machine
end

