-- ==== Sys2Proof/Machine/Print.lean ====
section
/-! DEFINITION. Byte and string output (44_print_byte_string.md R210 to R213). -/

namespace Sys2Proof.Machine

/-- PRINT_BYTE (R210): one ENQ, exactly as WRITE. -/
def execPrintByte (b : Byte) (s : State) : Host.Outcome State Fault Refusal := .next (s.sendByte b)

/-- PRINT_STRING, its issue step (R211). -/
def execPrintString (a : Addr16) (s : State) : Host.Outcome State Fault Refusal := .next (s.startString .data a)

/-- PRINT_PGM_STRING, its issue step (R212). -/
def execPrintPgmString (a : Addr16) (s : State) : Host.Outcome State Fault Refusal := .next (s.startString .pgm a)

/-- The STR micro-step (R213): read one string byte, and send it or finish. If ENQ holds, nothing changes. -/
def State.strStep (sp : Space) (a : Addr16) (s : State) : State :=
  let c := s.memRead sp a
  if c = 0#8 then s.complete
  else
    match s.enq c with
    | none => s
    | some t => t.setCursor sp (nextAddr a)

end Sys2Proof.Machine
end

