-- ==== Sys2Proof/Machine/RxFifo.lean ====
section
/-! DEFINITION. The receive FIFO: RX_PUSH, AVAILABLE, READ and FLUSH (40_rx_async_fifo.md R130 to R133). -/

namespace Sys2Proof.Machine

/-- RX_PUSH (R130). Enabled when the receive interrupt is enabled and the host offers `b`; otherwise RXP has no step and
nothing changes. The byte is stored at the head, or dropped when the head would meet the tail's view. -/
def execRxPush (b : Byte) (s : State) : Host.Outcome State Fault Refusal :=
  if s.rxEnabled && (s.line.inp.head? == some b) then
    if ringNext s.cfg.cRx s.rx.head = s.rx.tailView then .next (s.takeOffered.record (.rxDropped b))
    else .next ((s.takeOffered.storeRx b).record (.rxAccepted b))
  else .next s

/-- AVAILABLE (R131): the count of unread bytes the foreground can see. -/
def execAvailable (s : State) : Host.Outcome State Fault Refusal :=
  .next (s.writeRes (BitVec.ofNat 16 (ringDist s.cfg.cRx s.rx.tail s.rx.headView))).advance

/-- READ (R132): the oldest visible byte, or the sentinel when none is visible; an unwritten slot faults (R76). -/
def execRead (s : State) : Host.Outcome State Fault Refusal :=
  if s.rx.headView = s.rx.tail then .next (s.writeRes noData).advance
  else
    match Memory.read s.rx.mem s.rx.tail with
    | none => .next (s.raiseFault .unwrittenSlot (encode .read))
    | some b => .next ((s.writeRes (byteResult b)).setRxTail (ringNext s.cfg.cRx s.rx.tail)).advance

/-- FLUSH (R133): `rx.tail <- rx.head_view`, never the reverse. -/
def execFlush (s : State) : Host.Outcome State Fault Refusal :=
  .next (s.setRxTail s.rx.headView).advance

end Sys2Proof.Machine
end

