-- ==== Sys2Proof/Machine/Uart.lean ====
section
/-! DEFINITION. BEGIN and the baud-rate divisor (43_uart_begin.md R200, R201). -/

namespace Sys2Proof.Machine

/-- `divisor(baud)` at clock `fClk` (R200); none: Fault(BAD_BAUD). The integer formula is normative (C4). -/
def divisor (fClk baud : Nat) : Option (BitVec 16) :=
  if baud = 0 then none
  else
    let q := (fClk / 16 + baud / 2) / baud
    if q = 0 then none
    else if q - 1 > 0xFFFF then none
    else some (BitVec.ofNat 16 (q - 1))

/-- BEGIN (R201): REBEGIN is tested before BAD_BAUD, and a faulting BEGIN writes nothing (R285). -/
def execBegin (baud : BitVec 32) (s : State) : Host.Outcome State Fault Refusal :=
  if s.ctrl.rxen then .next (s.raiseFault .rebegin (encode (.beginUart baud)))
  else
    match divisor s.cfg.fClk (uint32 baud) with
    | none => .next (s.raiseFault .badBaud (encode (.beginUart baud)))
    | some d => .next (s.writeUbrr d).enableUart.advance

end Sys2Proof.Machine
end

