-- ==== Sys2Proof/Machine/Dispatch.lean ====
section
/-! DEFINITION. One arm per instruction: its meaning (for a multi-step command, its issue step). -/

namespace Sys2Proof.Machine

def exec (i : Instr) (s : State) : Host.Outcome State Fault Refusal :=
  match i with
  | .available => Sys2Proof.Machine.execAvailable s
  | .read => Sys2Proof.Machine.execRead s
  | .flush => Sys2Proof.Machine.execFlush s
  | .write b => Sys2Proof.Machine.execWrite b s
  | .beginUart baud => Sys2Proof.Machine.execBegin baud s
  | .printByte b => Sys2Proof.Machine.execPrintByte b s
  | .printString a => Sys2Proof.Machine.execPrintString a s
  | .printPgmString a => Sys2Proof.Machine.execPrintPgmString a s
  | .printIntBase m base => Sys2Proof.Machine.execPrintIntBase m base s
  | .printInt n => Sys2Proof.Machine.execPrintInt n s
  | .printFloat x => Sys2Proof.Machine.execPrintFloat x s
  | .rxPush b => Sys2Proof.Machine.execRxPush b s
  | .txDrain => Sys2Proof.Machine.execTxDrain s
  | .syncHead => Sys2Proof.Machine.execSyncHead s
  | .syncTail => Sys2Proof.Machine.execSyncTail s

end Sys2Proof.Machine
end

