-- ==== Sys2Proof/Machine/Agents.lean ====
section
/-! DEFINITION. The agents' steps (10_state.md R30, R44), the host's moves (60_exceptions.md R300), and how an instruction
is placed where the next step takes it. Machine/Step.lean only calls these. -/

namespace Sys2Proof.Machine

/-- FG's issue step: decode `P[fg.pc]` and execute the command's issue step; a refusal ends there (R44, R104). -/
def fgIssue (s : State) : Host.Outcome State Fault Refusal :=
  match s.commandWord with
  | none => .next s
  | some w =>
    match decodeCommand w with
    | .error r => .next (s.refuse r w)
    | .ok i => exec i s

/-- ENQ of the first pending byte, the micro-step of a byte-list command (R44). BUSY with nothing in progress, which no
run reaches, is a hold (log 15). -/
def State.pendingStep (s : State) : State :=
  match s.fg.pending with
  | [] => s
  | b :: rest =>
    match s.enq b with
    | none => s
    | some t => if rest = [] then t.complete else t.setPending rest

/-- FG's micro-step of the command in progress (R44). -/
def State.microStep (s : State) : State :=
  match s.fg.cursor with
  | some (sp, a) => s.strStep sp a
  | none => s.pendingStep

/-- One step of an enabled agent: FG issues or takes a micro-step; each other agent raises its own event (R30, R101). -/
def agentStep (a : Agent) (s : State) : Host.Outcome State Fault Refusal :=
  match a with
  | .fg =>
    match s.fg.mode with
    | .idle => fgIssue s
    | .busy => .next s.microStep
  | .rxp =>
    match s.line.inp with
    | [] => .next s
    | b :: _ => exec (.rxPush b) s
  | .txc => exec .txDrain s
  | .sh => exec .syncHead s
  | .st => exec .syncTail s

/-- A move of the host (R300). A byte offered while RXP is not enabled is never seen by the block (D19, log 12). -/
def State.hostMove (m : HostMove) (s : State) : State :=
  match m with
  | .offer b => if s.rxEnabled then { s with line := { s.line with inp := s.line.inp ++ [b] } } else s
  | .ready => { s with line := { s.line with ready := true } }
  | .busy => { s with line := { s.line with ready := false } }

/-- Take one turn: an agent that is not enabled has no step, and only the turn passes (R30, log 2). -/
def takeTurn (t : Turn) (s : State) : Host.Outcome State Fault Refusal :=
  match t with
  | .host m => .next (s.hostMove m)
  | .agent a => if s.enabled a then agentStep a s else .next s

/-- One step of the machine. A state that is no instance of the block is refused (U4, log 5); a marked state has no
further step (R48); otherwise the agent or host whose turn it is moves (R30). -/
def stepOf (s : State) : Host.Outcome State Fault Refusal :=
  if s.cfg.valid then
    match s.mark.fault, s.mark.refused with
    | some r, _ => .fault r
    | none, some r => .refused (.commandRefused r)
    | none, none => takeTurn s.nextTurn s.afterTurn
  else .refused .notAnInstance

/-! ### Placing an instruction (log 14) -/

/-- A list with one element replaced; the list is filled up with `fill` to reach it. -/
def placeAt {α : Type} (fill v : α) : Nat → List α → List α
  | 0, [] => [v]
  | 0, _ :: l => v :: l
  | n + 1, [] => fill :: placeAt fill v n []
  | n + 1, x :: l => x :: placeAt fill v n l

/-- Put a word where FG issues it next, and make the next turn FG's. -/
def State.placeCommand (w : CmdWord) (s : State) : State :=
  { s with
    program := placeAt 0#64 w s.fg.pc s.program
    fg := { pc := s.fg.pc, mode := .idle, pending := [], cursor := none }
    mark := { fault := none, refused := none }
    sched := .agent .fg :: s.sched }

/-- Make the next turn the issuer's of an event, with what enables that event set. -/
def State.placeEvent (i : Instr) (s : State) : State :=
  let t : State := { s with mark := { fault := none, refused := none }, sched := .agent i.issuer :: s.sched }
  match i with
  | .rxPush b =>
    { t with
      ctrl := { t.ctrl with rxen := true, rxcie := true }
      line := { t.line with inp := b :: t.line.inp } }
  | .txDrain =>
    { t with
      ctrl := { t.ctrl with txen := true, txie := true }
      line := { t.line with ready := true } }
  | .available | .read | .flush | .write _ | .beginUart _ | .printByte _ | .printString _ | .printPgmString _
  | .printIntBase _ _ | .printInt _ | .printFloat _ | .syncHead | .syncTail => t

/-- Place a word where the next step takes it: an event word as its agent's next event, any other on the command port. -/
def State.placeWord (w : CmdWord) (s : State) : State :=
  match decodeAnyEvent w with
  | some (_, i) => s.placeEvent i
  | none => s.placeCommand w

end Sys2Proof.Machine
end

