-- ==== Sys2Proof/Machine/Step.lean ====
section
/-! DEFINITION. One step of the machine, and the placing of one table word where that step takes it. -/

namespace Sys2Proof.Machine

/-- One atomic step of one agent, or one move of the host (10_state.md R30). -/
def step (s : State) : Host.Outcome State Fault Refusal := stepOf s

/-- `s` with the instruction of an opcode-table word placed so that the next step runs exactly it (log 14). -/
def State.withFetchWord (s : State) (nbits w : Nat) : State := s.placeWord (wordOfTable nbits w)

end Sys2Proof.Machine
end

