-- ==== Sys2Proof/Machine/Assembler.lean ====
section
/-! DEFINITION. The assembler lines of 30_encoding.md R108: the text of a line, the mnemonic and operands it spells, and the
word it makes. An operand that does not fit its form is an assembly error: no word (log 18). -/

namespace Sys2Proof.Machine

/-- An operand as R108 writes it. -/
inductive AsmOperand where
  /-- A decimal literal: (-1)^neg * mantissa / 10^places. -/
  | decimal (neg : Bool) (mantissa places : Nat)
  /-- A hexadecimal literal with `0x`. -/
  | hex (n : Nat)
  /-- A character literal `'c'`, for a byte. -/
  | char (c : Byte)
  deriving DecidableEq, Repr

/-- The lines of R108; the last four are event mnemonics, for traces only. -/
inductive AsmLine where
  | available
  | read
  | flush
  | write (b : AsmOperand)
  | begin_ (n : AsmOperand)
  | print_byte (b : AsmOperand)
  | print_string (a : AsmOperand)
  | print_pgm_string (a : AsmOperand)
  | print_int_base (n k : AsmOperand)
  | print_int (n : AsmOperand)
  | print_float (x : AsmOperand)
  | rx_push (b : AsmOperand)
  | tx_drain
  | sync_head
  | sync_tail
  deriving DecidableEq, Repr

/-! ### Reading the text of a line -/

/-- Skip spaces. -/
def skipSpaces : List Char → List Char
  | ' ' :: cs => skipSpaces cs
  | cs => cs

/-- The digit a character is in a base up to 16; none: it is no digit. -/
def digitOf (base : Nat) (c : Char) : Option Nat :=
  let n := c.toNat
  let d :=
    if 48 ≤ n ∧ n ≤ 57 then n - 48
    else if 65 ≤ n ∧ n ≤ 70 then n - 55
    else if 97 ≤ n ∧ n ≤ 102 then n - 87
    else 16
  if d < base then some d else none

/-- Read digits: the number they continue, how many they are, and the text after them. -/
def readDigits (base acc count : Nat) : List Char → Nat × Nat × List Char
  | [] => (acc, count, [])
  | c :: cs =>
    match digitOf base c with
    | some d => readDigits base (acc * base + d) (count + 1) cs
    | none => (acc, count, c :: cs)

/-- A decimal literal, with or without a fraction; at least one digit on each side of the point. -/
def readDecimal (neg : Bool) (cs : List Char) : Option (AsmOperand × List Char) :=
  match readDigits 10 0 0 cs with
  | (_, 0, _) => none
  | (m, _, '.' :: rest) =>
    match readDigits 10 m 0 rest with
    | (_, 0, _) => none
    | (m', places, rest') => some (.decimal neg m' places, rest')
  | (m, _, rest) => some (.decimal neg m 0, rest)

/-- One operand: a character literal, a hexadecimal literal with `0x`, or a decimal literal. DESIGN CHOICE, unsafe: the
spec names ASCII only (R10); a character literal with code point 128 to 255 stands for that byte, and one above is an
assembly error (log 23). -/
def readOperand : List Char → Option (AsmOperand × List Char)
  | '\'' :: c :: '\'' :: rest => if c.toNat < 256 then some (.char (BitVec.ofNat 8 c.toNat), rest) else none
  | '0' :: 'x' :: rest =>
    match readDigits 16 0 0 rest with
    | (_, 0, _) => none
    | (n, _, rest') => some (.hex n, rest')
  | '-' :: rest => readDecimal true rest
  | rest => readDecimal false rest

/-- The operands of a line: none, one, or two with a comma between them. -/
def readOperands (cs : List Char) : Option (List AsmOperand) :=
  match skipSpaces cs with
  | [] => some []
  | c :: rest =>
    match readOperand (c :: rest) with
    | none => none
    | some (o, after) =>
      match skipSpaces after with
      | [] => some [o]
      | ',' :: more =>
        match readOperand (skipSpaces more) with
        | some (o', end_) => if skipSpaces end_ = [] then some [o, o'] else none
        | none => none
      | _ => none

/-- The mnemonics without an operand. -/
def linesOf0 : List (String × AsmLine) :=
  [ ("available", .available), ("read", .read), ("flush", .flush), ("tx_drain", .tx_drain),
    ("sync_head", .sync_head), ("sync_tail", .sync_tail) ]

/-- The mnemonics with one operand. -/
def linesOf1 (o : AsmOperand) : List (String × AsmLine) :=
  [ ("write", .write o), ("begin", .begin_ o), ("print_byte", .print_byte o), ("print_string", .print_string o),
    ("print_pgm_string", .print_pgm_string o), ("print_int", .print_int o), ("print_float", .print_float o),
    ("rx_push", .rx_push o) ]

/-- The mnemonic with two operands. -/
def linesOf2 (o o' : AsmOperand) : List (String × AsmLine) := [("print_int_base", .print_int_base o o')]

/-- The line a table gives for a mnemonic. -/
def lookupLine (m : List Char) : List (String × AsmLine) → Option AsmLine
  | [] => none
  | (n, l) :: rest => if n.toList = m then some l else lookupLine m rest

/-- Read a line: a lower-case mnemonic, a space, and its operands (R108). -/
def readLine (text : String) : Option AsmLine :=
  let cs := skipSpaces text.toList
  let m := cs.takeWhile (fun c => c != ' ')
  match readOperands (cs.dropWhile (fun c => c != ' ')) with
  | some [] => lookupLine m linesOf0
  | some [o] => lookupLine m (linesOf1 o)
  | some [o, o'] => lookupLine m (linesOf2 o o')
  | some (_ :: _ :: _ :: _) => none
  | none => none

/-! ### Operands and words -/

/-- The whole number an operand spells; a decimal with a fraction and a character literal spell none (log 18). -/
def AsmOperand.int? : AsmOperand → Option Int
  | .decimal neg m 0 => some (if neg then -(m : Int) else (m : Int))
  | .decimal _ _ (_ + 1) => none
  | .hex n => some (n : Int)
  | .char _ => none

/-- An unsigned operand of `w` bits, or an assembly error. -/
def AsmOperand.unsigned? (w : Nat) (o : AsmOperand) : Option (BitVec w) :=
  match o.int? with
  | some n => if 0 ≤ n ∧ n < 2 ^ w then some (BitVec.ofInt w n) else none
  | none => none

/-- A byte operand: a number that fits 8 bits, or a character literal. -/
def AsmOperand.byte? : AsmOperand → Option Byte
  | .char c => some c
  | .decimal neg m p => AsmOperand.unsigned? 8 (.decimal neg m p)
  | .hex n => AsmOperand.unsigned? 8 (.hex n)

/-- A 32-bit two's-complement operand (`print_int`). DESIGN CHOICE, safe: R108 does not say whether a `0x` operand above
0x7FFFFFFF is the 32-bit pattern or a number that does not fit; here it is a number, and an assembly error (log 22). -/
def AsmOperand.signed32? (o : AsmOperand) : Option (BitVec 32) :=
  match o.int? with
  | some n => if -2147483648 ≤ n ∧ n ≤ 2147483647 then some (BitVec.ofInt 32 n) else none
  | none => none

/-- `num / den` rounded to a whole number, ties to even. -/
def roundHalfEven (num den : Nat) : Nat :=
  let q := num / den
  let r := num % den
  if 2 * r < den then q
  else if den < 2 * r then q + 1
  else q + q % 2

/-- The exponent of the power of two at or below the positive fraction `num / den`, plus 1000. -/
def floorLog2Biased (num den : Nat) : Nat :=
  let k := 1000 + Nat.log2 num - Nat.log2 den
  if num * 2 ^ (1000 - k) < den * 2 ^ (k - 1000) then k - 1 else k

/-- The magnitude bits of the binary32 value nearest to `num / den`, ties to even (R108, G9); none: it is beyond the
largest finite value. The unit in the last place is 2^u; `u1000` is u + 1000. -/
def nearestF32? (num den : Nat) : Option Nat :=
  if num = 0 then some 0
  else
    let u1000 := Nat.max (floorLog2Biased num den - 23) (1000 - 149)
    let m := roundHalfEven (num * 2 ^ (1000 - u1000)) (den * 2 ^ (u1000 - 1000))
    let bits := (u1000 - (1000 - 149)) * 2 ^ 23 + m
    if bits < 0x7F800000 then some bits else none

/-- The operand of `print_float`: a `0x` literal is the bit pattern itself, a decimal literal is converted (R108); the
minus sign sets the sign bit of a zero too (log 18). -/
def AsmOperand.float32? : AsmOperand → Option (BitVec 32)
  | .hex n => AsmOperand.unsigned? 32 (.hex n)
  | .char _ => none
  | .decimal neg m places =>
    (nearestF32? m (10 ^ places)).map fun bits =>
      BitVec.ofNat 32 ((if neg then 2 ^ 31 else 0) + bits)

/-- The instruction a line spells; none: an assembly error (R108). -/
def AsmLine.instr? : AsmLine → Option Instr
  | .available => some .available
  | .read => some .read
  | .flush => some .flush
  | .write b => b.byte?.map .write
  | .begin_ n => (n.unsigned? 32).map .beginUart
  | .print_byte b => b.byte?.map .printByte
  | .print_string a => (a.unsigned? 16).map .printString
  | .print_pgm_string a => (a.unsigned? 16).map .printPgmString
  | .print_int_base n k =>
    match n.unsigned? 32, k.unsigned? 8 with
    | some m, some base => some (.printIntBase m base)
    | none, _ => none
    | some _, none => none
  | .print_int n => n.signed32?.map .printInt
  | .print_float x => x.float32?.map .printFloat
  | .rx_push b => b.byte?.map .rxPush
  | .tx_drain => some .txDrain
  | .sync_head => some .syncHead
  | .sync_tail => some .syncTail

/-- The word of a line (R108). -/
def assemble (l : AsmLine) : Option CmdWord := l.instr?.map encode

/-- The word of a line's text; none: an assembly error. -/
def assembleText (text : String) : Option CmdWord :=
  match readLine text with
  | some l => assemble l
  | none => none

/-- A command program: one command per line (R108); the event mnemonics are for traces only. -/
def assembleProgram : List String → Option (List CmdWord)
  | [] => some []
  | l :: ls =>
    match readLine l with
    | none => none
    | some line =>
      match line.instr?, assembleProgram ls with
      | some i, some ws => if i.issuer = .fg then some (encode i :: ws) else none
      | none, _ => none
      | some _, none => none

end Sys2Proof.Machine
end

