-- ==== Sys2Proof/Machine/ExactFloat.lean ====
section
/-! DEFINITION. 46_float_to_decimal.md R250 and R251 in exact rational arithmetic, as the spec writes them. Statements are
made in these terms; the machine itself computes in whole numbers (Machine/FloatFormat.lean). -/

namespace Sys2Proof.Machine

/-- The exact value of a finite binary32 operand (R250). -/
def f32Value (x : BitVec 32) : ℚ :=
  (if f32Sign x then -1 else 1) *
    (if f32Exp x = 0 then (f32Frac x : ℚ) * 2 ^ (-149 : ℤ)
     else (2 ^ 23 + (f32Frac x : ℚ)) * 2 ^ ((f32Exp x : ℤ) - 150))

/-- `trunc(x)`: toward zero (R7). -/
def truncQ (v : ℚ) : ℤ := if v < 0 then ⌈v⌉ else ⌊v⌋

/-- `rha(q)` = floor(q + 1/2), for q >= 0 (R7). -/
def rhaQ (q : ℚ) : ℤ := ⌊q + 1 / 2⌋

/-- `t`, the integer part of a finite operand (R251). -/
def specInt (x : BitVec 32) : ℤ := truncQ (f32Value x)

/-- `fr` = |x - t| (R251). -/
def specFrac (x : BitVec 32) : ℚ := |f32Value x - specInt x|

/-- `q` = rha(fr * 1000) (R251). -/
def specMilli (x : BitVec 32) : ℤ := rhaQ (specFrac x * 1000)

end Sys2Proof.Machine
end

