-- ==== Sys2Proof/Safety.lean ====
section
/-! DEFINITION. What counts as a sound state: the invariants the spec states, the queues the FIFOs stand for, the end of a
run (70_reset_and_hazards.md R315) and the transmit path's states (42_tx_sync_fifo.md R185). -/

namespace Sys2Proof.Machine

/-! ### The end of a run (R315) -/

/-- `FG_DONE`. -/
abbrev State.FgDone (s : State) : Prop := s.fg.pc = s.program.length ∧ s.fg.mode = .idle

/-- `TX_QUIET`. -/
abbrev State.TxQuiet (s : State) : Prop := s.tx.head = s.tx.tail ∧ s.ctrl.txie = false

/-- `RX_SYNCED`. -/
abbrev State.RxSynced (s : State) : Prop := s.rx.headView = s.rx.head ∧ s.rx.tailView = s.rx.tail

/-- No mark is set (R48). -/
abbrev State.Unmarked (s : State) : Prop := s.mark.fault = none ∧ s.mark.refused = none

/-- `FINAL`. -/
abbrev State.Final (s : State) : Prop := s.FgDone ∧ s.TxQuiet ∧ s.Unmarked

/-! ### The transmit path's states (R185) -/

/-- IDLE: empty, interrupt disabled. -/
abbrev State.TxIdle (s : State) : Prop := s.tx.head = s.tx.tail ∧ s.ctrl.txie = false

/-- ACTIVE, non-empty. -/
abbrev State.TxActive (s : State) : Prop := s.tx.head ≠ s.tx.tail

/-- ACTIVE, empty. -/
abbrev State.TxActiveEmpty (s : State) : Prop := s.tx.head = s.tx.tail ∧ s.ctrl.txie = true

/-! ### Queues -/

/-- The slots from `a` on, `n` of them, round the ring of `c` slots. -/
def ringSlots (m : Memory) (c a n : Nat) : List (Option Byte) :=
  (List.range n).map fun k => Memory.read m ((a + k) % c)

/-- The bytes accepted and not yet read or flushed, oldest first (R82). -/
def State.rxQueue (s : State) : List (Option Byte) :=
  ringSlots s.rx.mem s.cfg.cRx s.rx.tail (ringDist s.cfg.cRx s.rx.tail s.rx.head)

/-- The bytes stored and not yet sent, oldest first (R188). -/
def State.txQueue (s : State) : List (Option Byte) :=
  ringSlots s.tx.mem s.cfg.cTx s.tx.tail (ringDist s.cfg.cTx s.tx.tail s.tx.head)

/-- The bytes of the `RxAccepted` events, in order: `acc` of R83. -/
def acceptedBytes : List Event → List Byte
  | [] => []
  | .rxAccepted b :: es => b :: acceptedBytes es
  | .rxDropped _ :: es => acceptedBytes es
  | .txSent _ :: es => acceptedBytes es
  | .refused _ _ _ :: es => acceptedBytes es
  | .fault _ _ _ :: es => acceptedBytes es

/-- The bytes of the `TxSent` events, in order. -/
def sentBytes : List Event → List Byte
  | [] => []
  | .txSent b :: es => b :: sentBytes es
  | .rxAccepted _ :: es => sentBytes es
  | .rxDropped _ :: es => sentBytes es
  | .refused _ _ _ :: es => sentBytes es
  | .fault _ _ _ :: es => sentBytes es

/-! ### Runs of instructions -/

/-- Execute instructions one after another, with no other agent between them. -/
def runExec : List Instr → State → Host.Outcome State Fault Refusal
  | [], s => .next s
  | i :: is, s =>
    match exec i s with
    | .next t => runExec is t
    | .fault r => .fault r
    | .refused r => .refused r

/-- `n` micro-steps of FG, with no other agent between them. -/
def microSteps : Nat → State → State
  | 0, s => s
  | n + 1, s => microSteps n s.microStep

/-- How many bytes the transmit FIFO can still take. -/
def State.txRoom (s : State) : Nat := s.cfg.cTx - 1 - ringDist s.cfg.cTx s.tx.tail s.tx.head

/-! ### Invariants -/

/-- Every index lies in its range (R33 to R36, R38, R39). -/
abbrev State.IndicesInRange (s : State) : Prop :=
  s.rx.head < s.cfg.cRx ∧ s.rx.tail < s.cfg.cRx ∧ s.rx.headView < s.cfg.cRx ∧ s.rx.tailView < s.cfg.cRx ∧
  s.tx.head < s.cfg.cTx ∧ s.tx.tail < s.cfg.cTx

/-- The receive-side invariant (R77): going forward the indices stand in the order TV, T, HV, H within C - 1. -/
abbrev State.RxSpan (s : State) : Prop :=
  ringDist s.cfg.cRx s.rx.tailView s.rx.tail + ringDist s.cfg.cRx s.rx.tail s.rx.headView +
    ringDist s.cfg.cRx s.rx.headView s.rx.head ≤ s.cfg.cRx - 1

/-- A non-empty transmit FIFO has its interrupt enabled (R187). -/
abbrev State.TxArmed (s : State) : Prop := s.tx.head ≠ s.tx.tail → s.ctrl.txie = true

/-- Every slot of an unread byte is written (R81, R82). -/
abbrev State.RxWritten (s : State) : Prop :=
  ∀ k < ringDist s.cfg.cRx s.rx.tail s.rx.head, (Memory.read s.rx.mem ((s.rx.tail + k) % s.cfg.cRx)).isSome = true

/-- Every slot of an unsent byte is written (R188). -/
abbrev State.TxWritten (s : State) : Prop :=
  ∀ k < ringDist s.cfg.cTx s.tx.tail s.tx.head, (Memory.read s.tx.mem ((s.tx.tail + k) % s.cfg.cTx)).isSome = true

/-- Every memory has its canonical form. -/
abbrev State.MemoriesWf (s : State) : Prop :=
  Memory.wf s.cfg.cRx s.rx.mem = true ∧ Memory.wf s.cfg.cTx s.tx.mem = true ∧
  Memory.imageWf s.data = true ∧ Memory.imageWf s.pgm = true

/-- The Gray registers hold the indices' codes, and the flip-flops the views' (R163). -/
abbrev State.GrayHeld (s : State) : Prop :=
  s.rx.headGray = grayCode s.cfg.cRx s.rx.head ∧ s.rx.tailGray = grayCode s.cfg.cRx s.rx.tail ∧
  s.rx.headSync = List.replicate s.cfg.syncStages (grayCode s.cfg.cRx s.rx.headView) ∧
  s.rx.tailSync = List.replicate s.cfg.syncStages (grayCode s.cfg.cRx s.rx.tailView)

/-- `fg.pending` and `fg.cursor` are never both in use, and one of them is in use exactly while BUSY (R43). -/
abbrev State.FgUse (s : State) : Prop :=
  (s.fg.mode = .idle → s.fg.pending = [] ∧ s.fg.cursor = none) ∧
  (s.fg.mode = .busy → (s.fg.pending ≠ [] ↔ s.fg.cursor = none))

/-- `fg.pc` never passes the program's length, and a command in progress is one of the program (R45). -/
abbrev State.PcInProgram (s : State) : Prop :=
  s.fg.pc ≤ s.program.length ∧ (s.fg.mode = .busy → s.fg.pc < s.program.length)

/-- BEGIN sets the three enables together, so they are equal (R40, R201). -/
abbrev State.EnablesTogether (s : State) : Prop := s.ctrl.txen = s.ctrl.rxen ∧ s.ctrl.rxcie = s.ctrl.rxen

/-- At most one mark is set (R285). -/
abbrev State.OneMark (s : State) : Prop := s.mark.fault = none ∨ s.mark.refused = none

/-- `line.out` is the bytes of the `TxSent` events (R184). -/
abbrev State.OutIsSent (s : State) : Prop := s.line.out = sentBytes s.hist

/-- The unread bytes are the last accepted ones, in order (R83). -/
abbrev State.RxOrdered (s : State) : Prop := s.rxQueue <:+ (acceptedBytes s.hist).map some

/-- The invariant of the machine: every state of a run that starts at reset has it. -/
structure State.Inv (s : State) : Prop where
  valid : s.cfg.valid = true
  indices : s.IndicesInRange
  rxSpan : s.RxSpan
  txArmed : s.TxArmed
  rxWritten : s.RxWritten
  txWritten : s.TxWritten
  memories : s.MemoriesWf
  gray : s.GrayHeld
  fgUse : s.FgUse
  pc : s.PcInProgram
  enables : s.EnablesTogether
  oneMark : s.OneMark
  outIsSent : s.OutIsSent
  rxOrdered : s.RxOrdered

end Sys2Proof.Machine
end

