-- ==== Sys2Proof/Certificates/Slice0/Obligations.lean ====
section
/-! DEFINITION. The statements for the provers. Each docstring names the rule of spec/ it formalises. In a statement of
the form "exec i s answers t and t = { s with … }", every field that is not named is unchanged: that is the frame. -/

open Sys2Proof Sys2Proof.Machine

/-! ### Encoding (30_encoding.md) -/

/-- R102 to R104: on the command port, the word of a command decodes to that command, for every command and every value
of its operands. -/
def Obligations.CommandsDecodeFromTheirWords : Prop :=
  ∀ i : Instr, i.issuer = .fg → decodeCommand (encode i) = .ok i

/-- R104, R106: the command port accepts no other word: a word that decodes is the word of the command it decodes to. -/
def Obligations.AcceptedWordIsTheCommandsWord : Prop :=
  ∀ (w : CmdWord) (i : Instr), decodeCommand w = .ok i → i.issuer = .fg ∧ encode i = w

/-- R102, R104: which words are refused, with which reason, in the order of the checks. -/
def Obligations.CommandPortRefusals : Prop :=
  ∀ w : CmdWord,
    (w.getLsbD 63 = true → decodeCommand w = .error .eventOnCommandPort) ∧
    (w.getLsbD 63 = false → (fieldOp w).toNat = 0 ∨ 0x0B < (fieldOp w).toNat → decodeCommand w = .error .illegalOpcode) ∧
    (1 ≤ (fieldOp w).toNat → (fieldOp w).toNat ≤ 0x0B →
      (decodeCommand w = .error .reservedNonzero ↔
        fieldRsvd w ≠ 0#16 ∨
        (fieldOp w ≠ 0x09#8 ∧ fieldArg1 w ≠ 0#8) ∨
        ((fieldOp w).toNat ≤ 3 ∧ fieldArg0 w ≠ 0#32) ∨
        ((fieldOp w = 0x04#8 ∨ fieldOp w = 0x06#8) ∧ 256 ≤ (fieldArg0 w).toNat) ∨
        ((fieldOp w = 0x07#8 ∨ fieldOp w = 0x08#8) ∧ 65536 ≤ (fieldArg0 w).toNat)) ∧
      (decodeCommand w ≠ .error .reservedNonzero → ∃ i, decodeCommand w = .ok i))

/-- R105: a trace entry is a step of this machine exactly when it is the word of an event of the agent it names. -/
def Obligations.TraceEntriesAreEventsOfTheirIssuer : Prop :=
  ∀ (a : Agent) (w : CmdWord) (i : Instr), decodeEvent a w = some i ↔ i.issuer = a ∧ a ≠ .fg ∧ encode i = w

/-- R110: the worked encodings. -/
def Obligations.WorkedEncodings : Prop :=
  assembleText "write 'A'" = some 0x0400000000000041#64 ∧
  assembleText "begin 9600" = some 0x0500000000002580#64 ∧
  assembleText "print_int_base 255, 16" = some 0x09100000000000FF#64 ∧
  assembleText "print_int -42" = some 0x0A000000FFFFFFD6#64 ∧
  assembleText "print_float 3.14159" = some 0x0B00000040490FD0#64 ∧
  assembleText "print_string 0x0100" = some 0x0700000000000100#64 ∧
  assembleText "rx_push 0x0D" = some 0x810000000000000D#64 ∧
  decodeCommand 0x0400000000000041#64 = .ok (.write 0x41#8) ∧
  decodeCommand 0x0500000000002580#64 = .ok (.beginUart 9600#32) ∧
  decodeCommand 0x09100000000000FF#64 = .ok (.printIntBase 255#32 16#8) ∧
  decodeCommand 0x0A000000FFFFFFD6#64 = .ok (.printInt (BitVec.ofInt 32 (-42))) ∧
  decodeCommand 0x0B00000040490FD0#64 = .ok (.printFloat 0x40490FD0#32) ∧
  decodeCommand 0x0700000000000100#64 = .ok (.printString 0x0100#16) ∧
  decodeEvent .rxp 0x810000000000000D#64 = some (.rxPush 0x0D#8) ∧
  decodeCommand 0x0401000000000041#64 = .error .reservedNonzero ∧
  decodeCommand 0x8100000000000041#64 = .error .eventOnCommandPort ∧
  decodeCommand 0x0C00000000000000#64 = .error .illegalOpcode

/-- R108: every line that assembles makes the word of its instruction: the command port decodes a command line back to
it, and the trace decoder an event line. -/
def Obligations.AssembledLinesDecodeBack : Prop :=
  ∀ (l : AsmLine) (w : CmdWord), assemble l = some w →
    ∃ i, l.instr? = some i ∧ decodeWord w = some i ∧ (i.issuer = .fg → decodeCommand w = .ok i)

/-! ### Reset (70_reset_and_hazards.md) -/

/-- R310: what reset leaves, for every instance and whatever is supplied from outside. `RES` is unwritten: nothing can be
read from it. -/
def Obligations.ResetValues : Prop :=
  (∀ (c : Config) (program : List CmdWord) (data pgm : Memory) (inp : List Byte) (ready : Bool) (sched : List Turn)
      (turns : Nat),
    let s := State.resetWith c program data pgm inp ready sched turns
    (∀ i, Memory.read s.rx.mem i = none) ∧
    s.rx.head = 0 ∧ s.rx.tail = 0 ∧ s.rx.headView = 0 ∧ s.rx.tailView = 0 ∧
    s.rx.headGray = grayCode c.cRx 0 ∧ s.rx.tailGray = grayCode c.cRx 0 ∧
    s.rx.headSync = List.replicate c.syncStages (grayCode c.cRx 0) ∧
    s.rx.tailSync = List.replicate c.syncStages (grayCode c.cRx 0) ∧
    (∀ i, Memory.read s.tx.mem i = none) ∧ s.tx.head = 0 ∧ s.tx.tail = 0 ∧
    s.ctrl.word = 0x00#8 ∧ s.ubrr = 0x0000#16 ∧ s.readRes = none ∧
    s.fg.pc = 0 ∧ s.fg.mode = .idle ∧ s.fg.pending = [] ∧ s.fg.cursor = none ∧
    s.line.out = [] ∧ s.hist = [] ∧ s.mark.fault = none ∧ s.mark.refused = none) ∧
  grayCode 150 0 = 0x2F#16

/-- The machine's reset state meets the invariant. -/
def Obligations.ResetMeetsInvariant : Prop := State.reset.Inv

/-- R316, R312: every clean entry meets the invariant, for every instance within R5's constraints. -/
def Obligations.CleanEntryMeetsInvariant : Prop :=
  ∀ (c : Config) (program : List CmdWord) (data pgm : Memory) (inp : List Byte) (ready : Bool) (sched : List Turn)
    (turns : Nat),
    c.valid = true → Memory.imageWf data = true → Memory.imageWf pgm = true →
      (State.resetWith c program data pgm inp ready sched turns).Inv

/-- R311: right after reset RXP and TXC have no step, and the synchronisers' steps change nothing. That the turn passes is
the model's choice (log 2). -/
def Obligations.AfterResetOnlyTheForegroundActs : Prop :=
  ∀ (c : Config) (program : List CmdWord) (data pgm : Memory) (inp : List Byte) (ready : Bool) (sched : List Turn)
    (turns : Nat) (a : Agent),
    let s := State.resetWith c program data pgm inp ready sched turns
    c.valid = true → a ≠ .fg → s.nextTurn = .agent a → step s = .next s.afterTurn

/-! ### Steps (10_state.md R30, R44) -/

/-- R44: when it is FG's turn (the schedule is the model's own, log 1), FG is IDLE and the word `P[fg.pc]` decodes to `i`,
the step is exec of `i` in the state whose turn has been taken; taking the turn changes only the schedule. -/
def Obligations.StepRunsDecodedCommand : Prop :=
  ∀ (s : State) (w : CmdWord) (i : Instr),
    s.cfg.valid = true → s.Unmarked → s.nextTurn = .agent .fg → s.fg.mode = .idle →
    s.program[s.fg.pc]? = some w → decodeCommand w = .ok i →
      step s = exec i s.afterTurn ∧
      s.afterTurn = { s with sched := s.afterTurn.sched, turns := s.afterTurn.turns }

/-- R30, R101: on its turn, each other agent raises its own event while it is enabled. -/
def Obligations.StepRaisesTheAgentsEvent : Prop :=
  ∀ s : State, s.cfg.valid = true → s.Unmarked →
    (∀ b rest, s.nextTurn = .agent .rxp → s.ctrl.rxen = true → s.ctrl.rxcie = true → s.line.inp = b :: rest →
      step s = exec (.rxPush b) s.afterTurn) ∧
    (s.nextTurn = .agent .txc → s.ctrl.txen = true → s.ctrl.txie = true → s.line.ready = true →
      step s = exec .txDrain s.afterTurn) ∧
    (s.nextTurn = .agent .sh → step s = exec .syncHead s.afterTurn) ∧
    (s.nextTurn = .agent .st → step s = exec .syncTail s.afterTurn)

/-- R30: an agent that is not enabled has no step. That its turn then passes and changes nothing but the model's own
schedule is the model's choice (log 2). -/
def Obligations.DisabledAgentHasNoStep : Prop :=
  ∀ s : State, s.cfg.valid = true → s.Unmarked →
    (s.nextTurn = .agent .fg ∧ s.fg.mode = .idle ∧ s.program.length ≤ s.fg.pc) ∨
    (s.nextTurn = .agent .rxp ∧ (s.ctrl.rxen = false ∨ s.ctrl.rxcie = false ∨ s.line.inp = [])) ∨
    (s.nextTurn = .agent .txc ∧ (s.ctrl.txen = false ∨ s.ctrl.txie = false ∨ s.line.ready = false)) →
      step s = .next s.afterTurn

/-- R282, R284: a word that spells no command sets the mark and is recorded with the word and `fg.pc`; nothing else
changes. -/
def Obligations.RefusedWordOnlyMarks : Prop :=
  ∀ (s : State) (w : CmdWord) (r : RefuseReason),
    s.cfg.valid = true → s.Unmarked → s.nextTurn = .agent .fg → s.fg.mode = .idle →
    s.program[s.fg.pc]? = some w → decodeCommand w = .error r →
      step s =
        .next { s.afterTurn with
          mark := { fault := none, refused := some r }
          hist := s.hist ++ [.refused r w s.fg.pc] }

/-- R284: a faulting instruction writes nothing but the mark and the history entry, whichever instruction it is. The word
recorded is the instruction's own; for TX_DRAIN that is the model's reading of R283 (log 20). -/
def Obligations.FaultingInstructionOnlyMarks : Prop :=
  ∀ (i : Instr) (s t : State) (r : Fault),
    s.mark.fault = none → exec i s = .next t → t.mark.fault = some r →
      t = { s with
        mark := { s.mark with fault := some r }
        hist := s.hist ++ [.fault r (encode i) s.fg.pc] }

/-- R48: once a mark is set, no agent has a further step. -/
def Obligations.MarkedStateHasNoStep : Prop :=
  ∀ s t : State, s.mark.fault ≠ none ∨ s.mark.refused ≠ none → step s ≠ .next t

/-- R72, R87: no step changes the parameters, the command program or a launch image. -/
def Obligations.StepKeepsProgramAndImages : Prop :=
  ∀ s t : State, step s = .next t →
    t.cfg = s.cfg ∧ t.program = s.program ∧ t.data = s.data ∧ t.pgm = s.pgm

/-! ### Receive FIFO (40_rx_async_fifo.md) -/

/-- R130: RX_PUSH of the offered byte. When the FIFO does not look full the byte is stored at the head and the head
advances, with its Gray register (R163); when it looks full the byte is taken and dropped. -/
def Obligations.RxPushEffect : Prop :=
  ∀ (s : State) (b : Byte),
    (s.ctrl.rxen = true → s.ctrl.rxcie = true → s.line.inp.head? = some b →
      (s.rx.head + 1) % s.cfg.cRx ≠ s.rx.tailView →
      ∃ t, exec (.rxPush b) s = .next t ∧
        Memory.read t.rx.mem s.rx.head = some b ∧
        (∀ a, a ≠ s.rx.head → Memory.read t.rx.mem a = Memory.read s.rx.mem a) ∧
        t = { s with
          rx := { s.rx with
            mem := t.rx.mem
            head := (s.rx.head + 1) % s.cfg.cRx
            headGray := grayCode s.cfg.cRx ((s.rx.head + 1) % s.cfg.cRx) }
          line := { s.line with inp := s.line.inp.tail }
          hist := s.hist ++ [.rxAccepted b] }) ∧
    (s.ctrl.rxen = true → s.ctrl.rxcie = true → s.line.inp.head? = some b →
      (s.rx.head + 1) % s.cfg.cRx = s.rx.tailView →
      exec (.rxPush b) s =
        .next { s with
          line := { s.line with inp := s.line.inp.tail }
          hist := s.hist ++ [.rxDropped b] })

/-- R131: AVAILABLE writes the count to `RES`, in 16 bits without loss, and `fg.pc` advances. The count is below `C_RX`,
equals the true count when the view shows the head, and is at most the true count in every state with the invariant. -/
def Obligations.AvailableReportsTheVisibleCount : Prop :=
  ∀ s : State, s.cfg.valid = true →
    ∃ t, exec .available s = .next t ∧
      t.res.toNat = (s.cfg.cRx + s.rx.headView - s.rx.tail) % s.cfg.cRx ∧
      t.res.toNat < s.cfg.cRx ∧
      (s.rx.headView = s.rx.head → t.res.toNat = ringDist s.cfg.cRx s.rx.tail s.rx.head) ∧
      (s.Inv → t.res.toNat ≤ ringDist s.cfg.cRx s.rx.tail s.rx.head) ∧
      t = { s with res := t.res, resWritten := true, fg := { s.fg with pc := s.fg.pc + 1 } }

/-- R132: READ. Nothing visible: the sentinel, which no byte's result equals. Otherwise the byte at the tail, and the
tail advances (with its Gray register, R163). An unwritten slot raises Fault(UNWRITTEN_SLOT). -/
def Obligations.ReadEffect : Prop :=
  (∀ s : State,
    (s.rx.headView = s.rx.tail →
      exec .read s =
        .next { s with res := 0xFFFF#16, resWritten := true, fg := { s.fg with pc := s.fg.pc + 1 } }) ∧
    (∀ b, s.rx.headView ≠ s.rx.tail → Memory.read s.rx.mem s.rx.tail = some b →
      exec .read s =
        .next { s with
          res := b.setWidth 16
          resWritten := true
          rx := { s.rx with
            tail := (s.rx.tail + 1) % s.cfg.cRx
            tailGray := grayCode s.cfg.cRx ((s.rx.tail + 1) % s.cfg.cRx) }
          fg := { s.fg with pc := s.fg.pc + 1 } }) ∧
    (s.rx.headView ≠ s.rx.tail → Memory.read s.rx.mem s.rx.tail = none → s.mark.fault = none →
      exec .read s =
        .next { s with
          mark := { s.mark with fault := some .unwrittenSlot }
          hist := s.hist ++ [.fault .unwrittenSlot (encode .read) s.fg.pc] })) ∧
  (∀ b : Byte, b.setWidth 16 ≠ 0xFFFF#16)

/-- R133: FLUSH copies the head's view into the tail (and its code into the tail's Gray register, R163). -/
def Obligations.FlushCopiesTheHeadView : Prop :=
  ∀ s : State,
    exec .flush s =
      .next { s with
        rx := { s.rx with tail := s.rx.headView, tailGray := grayCode s.cfg.cRx s.rx.headView }
        fg := { s.fg with pc := s.fg.pc + 1 } }

/-- R134: after FLUSH nothing is visible, and the FIFO cannot look full because of it: the drop test is the same until
SYNC_TAIL, and then counts only the bytes accepted after the copied head value. -/
def Obligations.FlushRaceIsSafe : Prop :=
  ∀ s t u : State, s.Inv → exec .flush s = .next t → exec .syncTail t = .next u →
    ringDist s.cfg.cRx t.rx.tail t.rx.headView = 0 ∧
    ringDist s.cfg.cRx t.rx.tailView t.rx.head = ringDist s.cfg.cRx s.rx.tailView s.rx.head ∧
    ringDist s.cfg.cRx t.rx.tail t.rx.head = ringDist s.cfg.cRx s.rx.headView s.rx.head ∧
    ringDist s.cfg.cRx u.rx.tailView u.rx.head = ringDist s.cfg.cRx s.rx.headView s.rx.head ∧
    ringDist s.cfg.cRx u.rx.tailView u.rx.head ≤ s.cfg.cRx - 1

/-- R83: READ returns the oldest unread byte and leaves the rest; FLUSH discards exactly the bytes the view shows. -/
def Obligations.ReadAndFlushTakeFromTheFront : Prop :=
  (∀ s : State, s.Inv → s.rx.headView ≠ s.rx.tail →
    ∃ b t, exec .read s = .next t ∧ t.res = b.setWidth 16 ∧ s.rxQueue = some b :: t.rxQueue) ∧
  (∀ s : State, s.Inv →
    ∃ t, exec .flush s = .next t ∧
      t.rxQueue = s.rxQueue.drop (ringDist s.cfg.cRx s.rx.tail s.rx.headView))

/-- R80, R325: the count AVAILABLE reports is at most the true count, and no turn of another agent or of the host makes
it smaller. -/
def Obligations.VisibleCountIsALowerBound : Prop :=
  ∀ s : State, s.Inv →
    ringDist s.cfg.cRx s.rx.tail s.rx.headView ≤ ringDist s.cfg.cRx s.rx.tail s.rx.head ∧
    (∀ t, s.nextTurn ≠ .agent .fg → step s = .next t →
      ringDist s.cfg.cRx s.rx.tail s.rx.headView ≤ ringDist t.cfg.cRx t.rx.tail t.rx.headView)

/-- R325: with no FLUSH between, each of as many READs as AVAILABLE reports returns the next unread byte, not the
sentinel. -/
def Obligations.CountedReadsReturnBytes : Prop :=
  ∀ (s : State) (j : Nat), s.Inv → j < ringDist s.cfg.cRx s.rx.tail s.rx.headView →
    ∃ t u b, runExec (List.replicate j .read) s = .next t ∧ exec .read t = .next u ∧
      s.rxQueue[j]? = some (some b) ∧ u.res = b.setWidth 16

/-! ### Gray code and synchronisers (41_gray_counter.md) -/

/-- R164, R165: SYNC_HEAD copies the head into its view, SYNC_TAIL the tail into its; the synchroniser's flip-flops then
hold the register's code (log 9). -/
def Obligations.SynchronisersCopyTheIndices : Prop :=
  ∀ s : State,
    exec .syncHead s =
      .next { s with
        rx := { s.rx with
          headView := s.rx.head
          headSync := List.replicate s.cfg.syncStages s.rx.headGray } } ∧
    exec .syncTail s =
      .next { s with
        rx := { s.rx with
          tailView := s.rx.tail
          tailSync := List.replicate s.cfg.syncStages s.rx.tailGray } }

/-- R161 items 1 to 3: the code is one-to-one; the codes of neighbouring indices differ in exactly one bit, at the wrap in
bit W - 1. -/
def Obligations.NeighbouringCodesDifferInOneBit : Prop :=
  ∀ c : Nat, c % 2 = 0 → 2 ≤ c → c ≤ 65536 →
    (∀ i j, i < c → j < c → grayCode c i = grayCode c j → i = j) ∧
    (∀ i, i + 1 < c → ∃ k < pointerWidth c, grayCode c i ^^^ grayCode c (i + 1) = BitVec.twoPow 16 k) ∧
    grayCode c (c - 1) ^^^ grayCode c 0 = BitVec.twoPow 16 (pointerWidth c - 1)

/-- R162: decoding the code of an index gives the index. -/
def Obligations.GrayDecodeInvertsGrayCode : Prop :=
  ∀ c i : Nat, c % 2 = 0 → 2 ≤ c → c ≤ 65536 → i < c → grayDecode c (grayCode c i) = i

/-- R163: every step keeps the Gray registers the codes of the indices, and the flip-flops the codes of the views. That all
flip-flops of a chain are loaded at once is the model's choice (log 9). -/
def Obligations.StepKeepsGrayRegisters : Prop :=
  ∀ s t : State, s.GrayHeld → step s = .next t → t.GrayHeld

/-! ### Transmit FIFO (42_tx_sync_fifo.md) and byte output (44_print_byte_string.md) -/

/-- R180, R181, R210: WRITE and PRINT_BYTE. When the FIFO is not full they store the byte at the head, advance the head,
set TXIE exactly when the FIFO was empty, and advance `fg.pc`; while it is full they hold: nothing changes. -/
def Obligations.WriteAndPrintByteEnqueue : Prop :=
  ∀ (s : State) (b : Byte) (i : Instr), i = .write b ∨ i = .printByte b →
    ((s.tx.head + 1) % s.cfg.cTx ≠ s.tx.tail →
      ∃ t, exec i s = .next t ∧
        Memory.read t.tx.mem s.tx.head = some b ∧
        (∀ a, a ≠ s.tx.head → Memory.read t.tx.mem a = Memory.read s.tx.mem a) ∧
        t = { s with
          tx := { s.tx with mem := t.tx.mem, head := (s.tx.head + 1) % s.cfg.cTx }
          ctrl := { s.ctrl with txie := if s.tx.head = s.tx.tail then true else s.ctrl.txie }
          fg := { s.fg with pc := s.fg.pc + 1 } }) ∧
    ((s.tx.head + 1) % s.cfg.cTx = s.tx.tail → exec i s = .next s)

/-- R184: TX_DRAIN. A non-empty FIFO sends the byte at the tail and advances the tail, and TXIE is not written; an empty
one clears TXIE; an unwritten slot raises Fault(UNWRITTEN_SLOT). -/
def Obligations.TxDrainEffect : Prop :=
  ∀ s : State,
    (∀ b, s.ctrl.txen = true → s.ctrl.txie = true → s.line.ready = true →
      s.tx.head ≠ s.tx.tail → Memory.read s.tx.mem s.tx.tail = some b →
      exec .txDrain s =
        .next { s with
          tx := { s.tx with tail := (s.tx.tail + 1) % s.cfg.cTx }
          line := { s.line with out := s.line.out ++ [b] }
          hist := s.hist ++ [.txSent b] }) ∧
    (s.ctrl.txen = true → s.ctrl.txie = true → s.line.ready = true → s.tx.head = s.tx.tail →
      exec .txDrain s = .next { s with ctrl := { s.ctrl with txie := false } }) ∧
    (s.ctrl.txen = true → s.ctrl.txie = true → s.line.ready = true →
      s.tx.head ≠ s.tx.tail → Memory.read s.tx.mem s.tx.tail = none → s.mark.fault = none →
      ∃ w, exec .txDrain s =
        .next { s with
          mark := { s.mark with fault := some .unwrittenSlot }
          hist := s.hist ++ [.fault .unwrittenSlot w s.fg.pc] })

/-- R30, R130, R184: a handler's event without its enables, or of a byte the host does not offer next, changes nothing.
That such an event answers the same state is the model's choice (log 2): the spec says only that there is no step. -/
def Obligations.EventWithoutItsEnablesChangesNothing : Prop :=
  ∀ (s : State) (b : Byte),
    (s.ctrl.rxen = false ∨ s.ctrl.rxcie = false ∨ s.line.inp.head? ≠ some b → exec (.rxPush b) s = .next s) ∧
    (s.ctrl.txen = false ∨ s.ctrl.txie = false ∨ s.line.ready = false → exec .txDrain s = .next s)

/-- R185: the transmit path's states, on ENQ (by WRITE) and on TX_DRAIN. -/
def Obligations.TransmitPathStates : Prop :=
  ∀ (s t : State) (b : Byte), s.Inv →
    (s.TxActive → s.ctrl.txie = true) ∧
    (exec (.write b) s = .next t → t.TxActive ∧ t.ctrl.txie = true) ∧
    (s.TxIdle → exec .txDrain s = .next t → t = s) ∧
    (s.TxActiveEmpty → s.ctrl.txen = true → s.line.ready = true → exec .txDrain s = .next t → t.TxIdle) ∧
    (s.TxActive → exec .txDrain s = .next t → t.TxActive ∨ t.TxActiveEmpty)

/-- R189: from an empty FIFO with no TX_DRAIN, `C_TX` - 1 WRITEs complete and the next holds; one TX_DRAIN that emits a
byte releases exactly that WRITE, and the WRITE after it holds again. -/
def Obligations.BackPressureReleasesOneWrite : Prop :=
  ∀ (s : State) (bs : List Byte) (b c : Byte),
    s.cfg.valid = true → s.IndicesInRange → s.tx.head = s.tx.tail → bs.length = s.cfg.cTx - 1 →
    s.ctrl.txen = true → s.line.ready = true →
      ∃ t u v, runExec (bs.map .write) s = .next t ∧ t.fg.pc = s.fg.pc + (s.cfg.cTx - 1) ∧
        exec (.write b) t = .next t ∧
        exec .txDrain t = .next u ∧ u.line.out = s.line.out ++ bs.take 1 ∧
        exec (.write b) u = .next v ∧ v.fg.pc = u.fg.pc + 1 ∧
        exec (.write c) v = .next v

/-- R186: with the transmitter enabled and the line ready, as many turns of TXC as there are bytes stored emit them all, in
order. Fairness of TXC stands here as a premise on the model's own schedule (log 1, log 17). -/
def Obligations.EveryStoredByteIsEmitted : Prop :=
  ∀ (s : State) (n : Nat) (rest : List Turn),
    s.Inv → s.Unmarked → s.ctrl.txen = true → s.line.ready = true →
    n = ringDist s.cfg.cTx s.tx.tail s.tx.head → s.sched = List.replicate n (.agent .txc) ++ rest →
      ∃ t, Sys2Proof.core.run n s = .next t ∧ t.tx.head = t.tx.tail ∧
        t.line.out.map some = s.line.out.map some ++ s.txQueue

/-- R322: before BEGIN, a WRITE on a full FIFO holds for ever: no turn of any agent or of the host changes the
foreground, the transmit FIFO or the enables. -/
def Obligations.WriteBeforeBeginHoldsForEver : Prop :=
  ∀ (s t : State) (w : CmdWord) (b : Byte),
    s.fg.mode = .idle → s.program[s.fg.pc]? = some w → decodeCommand w = .ok (.write b) →
    (s.tx.head + 1) % s.cfg.cTx = s.tx.tail → s.ctrl.txen = false → step s = .next t →
      t.fg = s.fg ∧ t.program = s.program ∧ t.tx = s.tx ∧ t.ctrl = s.ctrl ∧ t.cfg = s.cfg ∧ t.Unmarked

/-! ### BEGIN (43_uart_begin.md) -/

/-- R200, R201: BEGIN. A first BEGIN with a legal baud programs `((F_CLK div 16) + (baud div 2)) div baud - 1` and sets
RXEN, TXEN and RXCIE; TXIE and the FIFOs are not written. A second one faults with REBEGIN whatever the baud; a first one
with baud 0, quotient 0 or a divisor above 0xFFFF faults with BAD_BAUD. -/
def Obligations.BeginEffect : Prop :=
  ∀ (s : State) (baud : BitVec 32),
    (s.ctrl.rxen = false → baud.toNat ≠ 0 →
      1 ≤ (s.cfg.fClk / 16 + baud.toNat / 2) / baud.toNat →
      (s.cfg.fClk / 16 + baud.toNat / 2) / baud.toNat - 1 ≤ 0xFFFF →
      ∃ t, exec (.beginUart baud) s = .next t ∧
        t.ubrr.toNat = (s.cfg.fClk / 16 + baud.toNat / 2) / baud.toNat - 1 ∧
        t.ctrl.word = s.ctrl.word ||| 0x07#8 ∧
        t = { s with
          ubrr := t.ubrr
          ctrl := { rxen := true, txen := true, rxcie := true, txie := s.ctrl.txie }
          fg := { s.fg with pc := s.fg.pc + 1 } }) ∧
    (s.ctrl.rxen = true → s.mark.fault = none →
      exec (.beginUart baud) s =
        .next { s with
          mark := { s.mark with fault := some .rebegin }
          hist := s.hist ++ [.fault .rebegin (encode (.beginUart baud)) s.fg.pc] }) ∧
    (s.ctrl.rxen = false → s.mark.fault = none →
      baud.toNat = 0 ∨ (s.cfg.fClk / 16 + baud.toNat / 2) / baud.toNat = 0 ∨
        0xFFFF < (s.cfg.fClk / 16 + baud.toNat / 2) / baud.toNat - 1 →
      exec (.beginUart baud) s =
        .next { s with
          mark := { s.mark with fault := some .badBaud }
          hist := s.hist ++ [.fault .badBaud (encode (.beginUart baud)) s.fg.pc] })

/-! ### Strings (44_print_byte_string.md) -/

/-- R211, R212: the issue step of PRINT_STRING and PRINT_PGM_STRING sets the cursor and BUSY; `fg.pc` stays. -/
def Obligations.StringCommandsStart : Prop :=
  ∀ (s : State) (a : Addr16),
    exec (.printString a) s =
      .next { s with fg := { s.fg with mode := .busy, cursor := some (.data, a) } } ∧
    exec (.printPgmString a) s =
      .next { s with fg := { s.fg with mode := .busy, cursor := some (.pgm, a) } }

/-- R213: the STR micro-step finishes the command at the terminator, holds while the FIFO is full, and else stores the
byte by ENQ and advances the address modulo 2^16. -/
def Obligations.StringMicroStep : Prop :=
  ∀ (s : State) (sp : Space) (a : Addr16) (c : Byte),
    s.cfg.valid = true → s.Unmarked → s.nextTurn = .agent .fg → s.fg.mode = .busy → s.fg.cursor = some (sp, a) →
    c = Memory.imageRead (match sp with | .data => s.data | .pgm => s.pgm) a →
    (c = 0#8 →
      step s = .next { s.afterTurn with
        fg := { pc := s.fg.pc + 1, mode := .idle, pending := [], cursor := none } }) ∧
    (c ≠ 0#8 → (s.tx.head + 1) % s.cfg.cTx = s.tx.tail → step s = .next s.afterTurn) ∧
    (c ≠ 0#8 → (s.tx.head + 1) % s.cfg.cTx ≠ s.tx.tail →
      ∃ t, step s = .next t ∧
        Memory.read t.tx.mem s.tx.head = some c ∧
        (∀ x, x ≠ s.tx.head → Memory.read t.tx.mem x = Memory.read s.tx.mem x) ∧
        t = { s.afterTurn with
          tx := { s.tx with mem := t.tx.mem, head := (s.tx.head + 1) % s.cfg.cTx }
          ctrl := { s.ctrl with txie := if s.tx.head = s.tx.tail then true else s.ctrl.txie }
          fg := { s.fg with cursor := some (sp, BitVec.ofNat 16 ((a.toNat + 1) % 65536)) } })

/-- R211 to R213: with room for them all, a string command enqueues exactly the bytes before the terminator, in order,
and completes in one micro-step more than there are bytes. -/
def Obligations.WholeStringIsEnqueued : Prop :=
  ∀ (s : State) (sp : Space) (a : Addr16) (bs : List Byte),
    0 < s.cfg.cTx → s.tx.head < s.cfg.cTx → s.tx.tail < s.cfg.cTx → bs.length ≤ s.txRoom →
    s.fg.mode = .busy → s.fg.cursor = some (sp, a) →
    (∀ b ∈ bs, b ≠ 0#8) →
    (∀ k b, bs[k]? = some b → s.memRead sp (a + BitVec.ofNat 16 k) = b) →
    s.memRead sp (a + BitVec.ofNat 16 bs.length) = 0#8 →
      (microSteps (bs.length + 1) s).txQueue = s.txQueue ++ bs.map some ∧
      (microSteps (bs.length + 1) s).fg = { pc := s.fg.pc + 1, mode := .idle, pending := [], cursor := none }

/-- R44, R183: the micro-step of a byte-list command enqueues its first pending byte, and completes the command with the
last; while the FIFO is full it holds. -/
def Obligations.ByteListMicroStep : Prop :=
  ∀ (s : State) (b : Byte) (rest : List Byte),
    s.cfg.valid = true → s.Unmarked → s.nextTurn = .agent .fg → s.fg.mode = .busy → s.fg.cursor = none →
    s.fg.pending = b :: rest →
    ((s.tx.head + 1) % s.cfg.cTx = s.tx.tail → step s = .next s.afterTurn) ∧
    ((s.tx.head + 1) % s.cfg.cTx ≠ s.tx.tail →
      ∃ t, step s = .next t ∧
        Memory.read t.tx.mem s.tx.head = some b ∧
        (∀ x, x ≠ s.tx.head → Memory.read t.tx.mem x = Memory.read s.tx.mem x) ∧
        t = { s.afterTurn with
          tx := { s.tx with mem := t.tx.mem, head := (s.tx.head + 1) % s.cfg.cTx }
          ctrl := { s.ctrl with txie := if s.tx.head = s.tx.tail then true else s.ctrl.txie }
          fg :=
            if rest = [] then { pc := s.fg.pc + 1, mode := .idle, pending := [], cursor := none }
            else { s.fg with pending := rest } })

/-! ### Integers (45_int_to_ascii.md) -/

/-- R230, R234: the digits denote the number: most significant first, each below the base, no leading zero, at most 32 of
them; 0 is one digit 0. -/
def Obligations.DigitsDenoteTheNumber : Prop :=
  ∀ m base : Nat, m < 2 ^ 32 → 2 ≤ base →
    Nat.ofDigits base (udigits m base).reverse = m ∧
    (∀ d ∈ udigits m base, d < base) ∧
    1 ≤ (udigits m base).length ∧ (udigits m base).length ≤ 32 ∧
    (m = 0 → udigits m base = [0]) ∧
    (m ≠ 0 → (udigits m base).head? ≠ some 0)

/-- R231: the byte of a digit: '0' to '9', then from 'A' on, wrapping modulo 256 from digit 201. -/
def Obligations.DigitBytes : Prop :=
  ∀ d : Nat, d < 255 →
    (digitChar d).toNat = if d < 10 then 0x30 + d else if d ≤ 200 then 0x37 + d else 0x37 + d - 256

/-- R232: the issue step of PRINT_INT_BASE: the digits become pending, BUSY; a base below 2 faults with BAD_BASE. -/
def Obligations.PrintIntBaseStart : Prop :=
  ∀ (s : State) (m : BitVec 32) (base : BitVec 8),
    (2 ≤ base.toNat →
      exec (.printIntBase m base) s =
        .next { s with
          fg := { s.fg with mode := .busy, pending := (udigits m.toNat base.toNat).map digitChar } }) ∧
    (base.toNat < 2 → s.mark.fault = none →
      exec (.printIntBase m base) s =
        .next { s with
          mark := { s.mark with fault := some .badBase }
          hist := s.hist ++ [.fault .badBase (encode (.printIntBase m base)) s.fg.pc] })

/-- R233: the issue step of PRINT_INT: '-' for a negative operand, then the digits of its exact magnitude; 1 to 11 bytes. -/
def Obligations.PrintIntStart : Prop :=
  ∀ (s : State) (n : BitVec 32),
    ∃ bs : List Byte,
      exec (.printInt n) s = .next { s with fg := { s.fg with mode := .busy, pending := bs } } ∧
      (n.toInt < 0 → bs = 0x2D#8 :: (udigits (-n.toInt).toNat 10).map digitChar) ∧
      (0 ≤ n.toInt → bs = (udigits n.toInt.toNat 10).map digitChar) ∧
      1 ≤ bs.length ∧ bs.length ≤ 11

/-- R44, R183: with room for them all, a byte-list command enqueues its pending bytes in order, one per micro-step, and
completes with the last. -/
def Obligations.WholeByteListIsEnqueued : Prop :=
  ∀ (s : State) (bs : List Byte),
    0 < s.cfg.cTx → s.tx.head < s.cfg.cTx → s.tx.tail < s.cfg.cTx → bs.length ≤ s.txRoom →
    s.fg.mode = .busy → s.fg.cursor = none → bs ≠ [] → s.fg.pending = bs →
      (microSteps bs.length s).txQueue = s.txQueue ++ bs.map some ∧
      (microSteps bs.length s).fg = { pc := s.fg.pc + 1, mode := .idle, pending := [], cursor := none }

/-! ### Floats (46_float_to_decimal.md) -/

/-- R250 to R252: the issue step of PRINT_FLOAT in exact arithmetic: the integer part, '.', and the rounded fraction, by
`FRAC_PAD`. -/
def Obligations.PrintFloatStart : Prop :=
  ∀ (s : State) (x : BitVec 32),
    f32Exp x ≠ 255 → -2 ^ 31 ≤ specInt x → specInt x ≤ 2 ^ 31 - 1 →
      exec (.printFloat x) s =
        .next { s with
          fg := { s.fg with
            mode := .busy
            pending := fmtInt (specInt x) ++ [0x2E#8] ++
              (if s.cfg.fracPad = .pad3 ∧ specMilli x < 1000 then
                [digitChar ((specMilli x).toNat / 100), digitChar ((specMilli x).toNat / 10 % 10),
                  digitChar ((specMilli x).toNat % 10)]
               else (udigits (specMilli x).toNat 10).map digitChar) } }

/-- R251, R252, R285: a NaN or an infinity faults with FLOAT_NOT_FINITE; a finite value whose integer part is outside 32
bits faults with FLOAT_INT_RANGE. -/
def Obligations.PrintFloatFaults : Prop :=
  ∀ (s : State) (x : BitVec 32), s.mark.fault = none →
    (f32Exp x = 255 →
      exec (.printFloat x) s =
        .next { s with
          mark := { s.mark with fault := some .floatNotFinite }
          hist := s.hist ++ [.fault .floatNotFinite (encode (.printFloat x)) s.fg.pc] }) ∧
    (f32Exp x ≠ 255 → specInt x < -2 ^ 31 ∨ 2 ^ 31 - 1 < specInt x →
      exec (.printFloat x) s =
        .next { s with
          mark := { s.mark with fault := some .floatIntRange }
          hist := s.hist ++ [.fault .floatIntRange (encode (.printFloat x)) s.fg.pc] })

/-- R253: a tie occurs exactly when the fraction is an odd multiple of 1/16. -/
def Obligations.FloatTiesAreOddSixteenths : Prop :=
  ∀ x : BitVec 32, f32Exp x ≠ 255 →
    ((∃ k : Nat, specFrac x * 1000 = (k : ℚ) + 1 / 2) ↔ ∃ j : Nat, j < 16 ∧ j % 2 = 1 ∧ specFrac x = (j : ℚ) / 16)

/-- R251: the output has 5 to 16 bytes under PAD3 and 3 to 16 under UNPADDED. -/
def Obligations.FloatOutputLength : Prop :=
  ∀ (pad : FracPad) (x : BitVec 32) (bs : List Byte), fmtFloat pad x = .ok bs →
    (match pad with | .pad3 => 5 | .unpadded => 3) ≤ bs.length ∧ bs.length ≤ 16

/-! ### Invariants and whole-machine rules -/

/-- R77: the receive-side invariant holds at every clean entry, and every step keeps it. -/
def Obligations.RxIndicesKeepTheirSpan : Prop :=
  (∀ (c : Config) (program : List CmdWord) (data pgm : Memory) (inp : List Byte) (ready : Bool) (sched : List Turn)
      (turns : Nat),
    c.valid = true →
      (State.resetWith c program data pgm inp ready sched turns).IndicesInRange ∧
      (State.resetWith c program data pgm inp ready sched turns).RxSpan) ∧
  (∀ s t : State, s.IndicesInRange → s.RxSpan → step s = .next t → t.IndicesInRange ∧ t.RxSpan)

/-- R187: at every clean entry, and kept by every step: a non-empty transmit FIFO has `CTRL.TXIE` = 1. -/
def Obligations.NonEmptyTransmitFifoIsArmed : Prop :=
  (∀ (c : Config) (program : List CmdWord) (data pgm : Memory) (inp : List Byte) (ready : Bool) (sched : List Turn)
      (turns : Nat), (State.resetWith c program data pgm inp ready sched turns).TxArmed) ∧
  (∀ s t : State, s.TxArmed → step s = .next t → t.TxArmed)

/-- Every step keeps the machine's whole invariant; its clause on the flip-flops rests on the model's choice (log 9). -/
def Obligations.StepKeepsInvariant : Prop :=
  ∀ s t : State, s.Inv → step s = .next t → t.Inv

/-- R76: no step from a state with the invariant reads an unwritten slot. -/
def Obligations.NoUnwrittenSlotIsRead : Prop :=
  ∀ s t : State, s.Inv → step s = .next t → t.mark.fault ≠ some .unwrittenSlot

/-- R82: no accepted byte is overwritten or lost before READ or FLUSH passes it: the unread bytes stay as they are, gain
the accepted byte at the end, or lose visible bytes at the front. -/
def Obligations.UnreadBytesKeepTheirOrder : Prop :=
  ∀ s t : State, s.Inv → step s = .next t →
    t.rxQueue = s.rxQueue ∨
    (∃ b, s.nextTurn = .agent .rxp ∧ t.hist = s.hist ++ [.rxAccepted b] ∧ t.rxQueue = s.rxQueue ++ [some b]) ∨
    (∃ k, s.nextTurn = .agent .fg ∧ k ≤ ringDist s.cfg.cRx s.rx.tail s.rx.headView ∧ t.rxQueue = s.rxQueue.drop k)

/-- R83: the bytes sent, followed by the bytes stored and not yet sent, only ever grow at the end, by a byte FG
enqueues. -/
def Obligations.SentBytesKeepTheirOrder : Prop :=
  ∀ s t : State, s.Inv → step s = .next t →
    t.line.out.map some ++ t.txQueue = s.line.out.map some ++ s.txQueue ∨
    (∃ b, s.nextTurn = .agent .fg ∧
      t.line.out.map some ++ t.txQueue = s.line.out.map some ++ s.txQueue ++ [some b])

/-- R49: each field has one writer agent, but `CTRL.TXIE`, which has FG and TXC. -/
def Obligations.EachFieldHasOneWriter : Prop :=
  ∀ s t : State, step s = .next t →
    (s.nextTurn ≠ .agent .rxp → t.rx.mem = s.rx.mem ∧ t.rx.head = s.rx.head) ∧
    (s.nextTurn ≠ .agent .fg →
      t.rx.tail = s.rx.tail ∧ t.tx.mem = s.tx.mem ∧ t.tx.head = s.tx.head ∧
      t.ctrl.rxen = s.ctrl.rxen ∧ t.ctrl.txen = s.ctrl.txen ∧ t.ctrl.rxcie = s.ctrl.rxcie ∧
      t.ubrr = s.ubrr ∧ t.res = s.res ∧ t.resWritten = s.resWritten ∧ t.fg = s.fg) ∧
    (s.nextTurn ≠ .agent .sh → t.rx.headView = s.rx.headView) ∧
    (s.nextTurn ≠ .agent .st → t.rx.tailView = s.rx.tailView) ∧
    (s.nextTurn ≠ .agent .txc → t.tx.tail = s.tx.tail ∧ t.line.out = s.line.out) ∧
    (s.nextTurn ≠ .agent .fg → s.nextTurn ≠ .agent .txc → t.ctrl.txie = s.ctrl.txie)

/-- R40: once set, RXEN, TXEN and RXCIE stay set. -/
def Obligations.UartEnablesStaySet : Prop :=
  ∀ s t : State, step s = .next t →
    (s.ctrl.rxen = true → t.ctrl.rxen = true) ∧
    (s.ctrl.txen = true → t.ctrl.txen = true) ∧
    (s.ctrl.rxcie = true → t.ctrl.rxcie = true)

/-- R288: TX_DRAIN against RX_PUSH, SYNC_HEAD or SYNC_TAIL: the state after both does not depend on their order, but for
the order of the two entries in the history. -/
def Obligations.HandlersCommuteWithTxDrain : Prop :=
  ∀ (i : Instr) (b : Byte) (s s1 s2 s3 s4 : State), i = .rxPush b ∨ i = .syncHead ∨ i = .syncTail →
    exec i s = .next s1 → exec .txDrain s1 = .next s2 →
    exec .txDrain s = .next s3 → exec i s3 = .next s4 →
      { s2 with hist := [] } = { s4 with hist := [] } ∧
      (∀ e, e ∈ s2.hist ↔ e ∈ s4.hist)

/-- R315: in a final state neither FG nor TXC has a step: their turns change nothing but the model's own schedule (log 1,
log 2). -/
def Obligations.FinalStateIsQuiet : Prop :=
  ∀ s : State, s.cfg.valid = true → s.Final → s.nextTurn = .agent .fg ∨ s.nextTurn = .agent .txc →
    step s = .next s.afterTurn
end

