-- ==== Sys2Proof/Laws/Decode.lean ====
section
/-! SUPPORT. The fields of a word and the rows it selects: a word is its four fields, the fields of an encoded
instruction, and what a row's mask and match ask of the fields (30_encoding.md R102, R103). -/

namespace Sys2Proof

/-- The four fields of a word put together from them. -/
theorem fields_append (a b : BitVec 8) (c : BitVec 16) (d : BitVec 32) (w : CmdWord) (hw : w = a ++ b ++ c ++ d) :
    fieldOp w = a ∧ fieldArg1 w = b ∧ fieldRsvd w = c ∧ fieldArg0 w = d := by
  subst hw
  refine ⟨?_, ?_, ?_, ?_⟩
  · apply BitVec.eq_of_getLsbD_eq
    intro k hk
    simp only [fieldOp, BitVec.getLsbD_extractLsb', BitVec.getLsbD_append]
    rw [if_neg (by omega), if_neg (by omega), if_neg (by omega)]
    simp only [hk, decide_true, Bool.true_and]
    exact congrArg _ (by omega)
  · apply BitVec.eq_of_getLsbD_eq
    intro k hk
    simp only [fieldArg1, BitVec.getLsbD_extractLsb', BitVec.getLsbD_append]
    rw [if_neg (by omega), if_neg (by omega), if_pos (by omega)]
    simp only [hk, decide_true, Bool.true_and]
    exact congrArg _ (by omega)
  · apply BitVec.eq_of_getLsbD_eq
    intro k hk
    simp only [fieldRsvd, BitVec.getLsbD_extractLsb', BitVec.getLsbD_append]
    rw [if_neg (by omega), if_pos (by omega)]
    simp [hk]
  · apply BitVec.eq_of_getLsbD_eq
    intro k hk
    simp only [fieldArg0, BitVec.getLsbD_extractLsb', BitVec.getLsbD_append]
    rw [if_pos (by omega)]
    simp [hk]

/-- A word is its four fields. -/
theorem word_fields (w : CmdWord) : w = fieldOp w ++ fieldArg1 w ++ fieldRsvd w ++ fieldArg0 w := by
  apply BitVec.eq_of_getLsbD_eq
  intro k hk
  simp only [BitVec.getLsbD_append, fieldOp, fieldArg1, fieldRsvd, fieldArg0, BitVec.getLsbD_extractLsb']
  split
  · simp [*]
  · rename_i h1
    split
    · rename_i h2
      simp only [h2, decide_true, Bool.true_and]
      exact congrArg _ (by omega)
    · rename_i h2
      split
      · rename_i h3
        simp only [h3, decide_true, Bool.true_and]
        exact congrArg _ (by omega)
      · rename_i h3
        have h4 : k - 32 - 16 - 8 < 8 := by omega
        simp only [h4, decide_true, Bool.true_and]
        exact congrArg _ (by omega)

theorem bits_append_inj {m n : Nat} (a a' : BitVec m) (b b' : BitVec n) :
    a ++ b = a' ++ b' ↔ a = a' ∧ b = b' := by
  constructor
  · intro h
    constructor
    · apply BitVec.eq_of_getLsbD_eq; intro k hk
      have := congrArg (fun x => x.getLsbD (n + k)) h
      simpa [BitVec.getLsbD_append] using this
    · apply BitVec.eq_of_getLsbD_eq; intro k hk
      have := congrArg (fun x => x.getLsbD k) h
      simpa [BitVec.getLsbD_append, hk] using this
  · rintro ⟨rfl, rfl⟩; rfl

theorem bits_append_and {m n : Nat} (a a' : BitVec m) (b b' : BitVec n) :
    (a ++ b) &&& (a' ++ b') = (a &&& a') ++ (b &&& b') := by
  apply BitVec.eq_of_getLsbD_eq; intro k hk
  simp only [BitVec.getLsbD_append, BitVec.getLsbD_and]
  split <;> rfl

/-- What a mask made of four fields asks of a word's fields. -/
theorem fields_select_iff (op a1 : BitVec 8) (rs : BitVec 16) (a0 : BitVec 32) (m1 : BitVec 8) (m0 : BitVec 32)
    (code : BitVec 8) (mask : CmdWord) (hm : mask = 0xFF#8 ++ m1 ++ 0xFFFF#16 ++ m0) :
    ((op ++ a1 ++ rs ++ a0 : CmdWord) &&& mask = code ++ 0#56) ↔
      op = code ∧ a1 &&& m1 = 0#8 ∧ rs = 0#16 ∧ a0 &&& m0 = 0#32 := by
  subst hm
  have h0 : (code ++ 0#56 : CmdWord) = code ++ 0#8 ++ 0#16 ++ 0#32 := by
    apply BitVec.eq_of_getLsbD_eq
    intro k hk
    simp only [BitVec.getLsbD_append]
    repeat' split
    all_goals first | rfl | (simp; done) | omega
  rw [h0]
  rw [bits_append_and, bits_append_and, bits_append_and]
  rw [bits_append_inj, bits_append_inj, bits_append_inj]
  have e1 : op &&& 0xFF#8 = op := BitVec.and_allOnes
  have e2 : rs &&& 0xFFFF#16 = rs := BitVec.and_allOnes
  rw [e1, e2]
  tauto

/-- The fields of an encoded instruction (R102). -/
theorem encode_fields (i : Instr) :
    fieldOp (encode i) = i.code ∧ fieldArg1 (encode i) = i.arg1 ∧ fieldRsvd (encode i) = 0#16 ∧
      fieldArg0 (encode i) = i.arg0 :=
  fields_append _ _ _ _ _ rfl

/-- A word with an instruction's fields is its word. -/
theorem encode_of_fields (i : Instr) (w : CmdWord) (h1 : fieldOp w = i.code) (h2 : fieldArg1 w = i.arg1)
    (h3 : fieldRsvd w = 0#16) (h4 : fieldArg0 w = i.arg0) : encode i = w := by
  rw [word_fields w, h1, h2, h3, h4]
  rfl

/-- The bits of ARG1 a form's mask covers. -/
def Form.maskArg1 : Form → BitVec 8
  | .none | .u8 | .addr16 | .u32 | .s32 | .f32 => 0xFF#8
  | .u32base8 => 0#8

/-- The bits of ARG0 a form's mask covers. -/
def Form.maskArg0 : Form → BitVec 32
  | .none => 0xFFFFFFFF#32
  | .u8 => 0xFFFFFF00#32
  | .addr16 => 0xFFFF0000#32
  | .u32 | .s32 | .f32 | .u32base8 => 0#32

theorem Form.mask_fields (f : Form) : f.mask = 0xFF#8 ++ f.maskArg1 ++ 0xFFFF#16 ++ f.maskArg0 := by
  cases f <;> decide

/-- Which words select a row, field by field (R103). -/
theorem OpRow.selects_iff (r : OpRow) (w : CmdWord) :
    r.selects w = true ↔
      fieldOp w = r.code ∧ fieldArg1 w &&& r.form.maskArg1 = 0#8 ∧ fieldRsvd w = 0#16 ∧
        fieldArg0 w &&& r.form.maskArg0 = 0#32 := by
  unfold OpRow.selects OpRow.matchBits
  rw [beq_iff_eq]
  conv_lhs => rw [word_fields w]
  exact fields_select_iff _ _ _ _ _ _ _ _ (Form.mask_fields r.form)

theorem and_allOnes8 (a : BitVec 8) : a &&& 0xFF#8 = a := BitVec.and_allOnes
theorem and_allOnes32 (a : BitVec 32) : a &&& 0xFFFFFFFF#32 = a := BitVec.and_allOnes

theorem and_hi (a : BitVec 32) (n : Nat) (hn : n ≤ 32) :
    a &&& (BitVec.allOnes 32 <<< n) = 0#32 ↔ a.toNat < 2 ^ n := by
  have key : ∀ i < 32, (a &&& (BitVec.allOnes 32 <<< n)).getLsbD i = (a.getLsbD i && decide (n ≤ i)) := by
    intro i hi
    simp only [BitVec.getLsbD_and, BitVec.getLsbD_shiftLeft, BitVec.getLsbD_allOnes, hi]
    by_cases h : n ≤ i <;> simp [h]; omega
  constructor
  · intro h
    apply Nat.lt_pow_two_of_testBit
    intro i hi
    by_cases h32 : i < 32
    · have h1 := key i h32
      rw [h] at h1
      rw [BitVec.testBit_toNat]
      simpa [hi] using h1.symm
    · exact Nat.testBit_lt_two_pow (Nat.lt_of_lt_of_le a.isLt (Nat.pow_le_pow_right (by omega) (by omega)))
  · intro h
    apply BitVec.eq_of_getLsbD_eq
    intro i hi
    rw [key i hi]
    by_cases h2 : n ≤ i
    · have : a.getLsbD i = false := by
        rw [← BitVec.testBit_toNat]
        exact Nat.testBit_lt_two_pow (Nat.lt_of_lt_of_le h (Nat.pow_le_pow_right (by omega) (by omega)))
      simp [this]
    · simp [h2]
/-- The bits of ARG0 above a byte are 0 exactly when its value fits a byte. -/
theorem and_above_u8 (a : BitVec 32) : a &&& 0xFFFFFF00#32 = 0#32 ↔ a.toNat < 256 := by
  rw [show 0xFFFFFF00#32 = BitVec.allOnes 32 <<< 8 by decide]
  exact and_hi a 8 (by omega)

/-- The bits of ARG0 above an address are 0 exactly when its value fits an address. -/
theorem and_above_addr16 (a : BitVec 32) : a &&& 0xFFFF0000#32 = 0#32 ↔ a.toNat < 65536 := by
  rw [show 0xFFFF0000#32 = BitVec.allOnes 32 <<< 16 by decide]
  exact and_hi a 16 (by omega)

theorem extract_setWidth_u8 (b : Byte) : BitVec.extractLsb' 0 8 (BitVec.setWidth 32 b) = b := by
  apply BitVec.eq_of_toNat_eq
  simp
  omega

theorem extract_setWidth_addr16 (b : Addr16) : BitVec.extractLsb' 0 16 (BitVec.setWidth 32 b) = b := by
  apply BitVec.eq_of_toNat_eq
  simp
  omega

theorem setWidth_extract_u8 (a : BitVec 32) (h : a.toNat < 256) :
    BitVec.setWidth 32 (BitVec.extractLsb' 0 8 a) = a := by
  apply BitVec.eq_of_toNat_eq
  simp
  omega

theorem setWidth_extract_addr16 (a : BitVec 32) (h : a.toNat < 65536) :
    BitVec.setWidth 32 (BitVec.extractLsb' 0 16 a) = a := by
  apply BitVec.eq_of_toNat_eq
  simp
  omega

/-- The top bit of a word is the top bit of OP (R101). -/
theorem fieldOp_msb (w : CmdWord) : (fieldOp w).msb = w.getLsbD 63 := by
  simp [fieldOp, BitVec.msb_eq_getLsbD_last]

end Sys2Proof
end

