-- ==== Sys2Proof/Laws/Memory.lean ====
section
/-! SUPPORT. The laws of the byte stores: a read after a write, and that every operation keeps the canonical form. -/

namespace Sys2Proof.Machine

variable {m : Memory} {a a' lo bound : Nat} {b : Byte}

@[simp] theorem Memory.read_write_same : Memory.read (Memory.write m a b) a = some b := by
  induction m with
  | nil => simp [Memory.write, Memory.read]
  | cons c m ih =>
    obtain ⟨x, y⟩ := c
    unfold Memory.write
    split
    · simp [Memory.read]
    · split
      · simp [Memory.read]
      · have h : x ≠ a := fun h => ‹¬a = x› h.symm
        simp [Memory.read, h, ih]

theorem Memory.read_write_other (h : a' ≠ a) : Memory.read (Memory.write m a b) a' = Memory.read m a' := by
  induction m with
  | nil => simp [Memory.write, Memory.read, h.symm]
  | cons c m ih =>
    obtain ⟨x, y⟩ := c
    unfold Memory.write
    split
    · rw [Memory.read, if_neg h.symm]
    · split
      · subst a
        rw [Memory.read, if_neg h.symm, Memory.read, if_neg h.symm]
      · rw [Memory.read, Memory.read, ih]

theorem Memory.read_write : Memory.read (Memory.write m a b) a' = if a' = a then some b else Memory.read m a' := by
  split
  · next h => rw [h, Memory.read_write_same]
  · exact Memory.read_write_other ‹_›

theorem Memory.wfFrom_write (hm : Memory.wfFrom bound lo m = true) (hlo : lo ≤ a) (ha : a < bound) :
    Memory.wfFrom bound lo (Memory.write m a b) = true := by
  induction m generalizing lo with
  | nil => simp [Memory.write, Memory.wfFrom, hlo, ha]
  | cons c m ih =>
    obtain ⟨x, y⟩ := c
    simp only [Memory.wfFrom, Bool.and_eq_true, decide_eq_true_eq] at hm
    obtain ⟨⟨h1, h2⟩, h3⟩ := hm
    unfold Memory.write
    split
    · simp only [Memory.wfFrom, Bool.and_eq_true, decide_eq_true_eq]
      exact ⟨⟨hlo, ha⟩, ⟨by omega, h2⟩, h3⟩
    · split
      · subst a
        simp only [Memory.wfFrom, Bool.and_eq_true, decide_eq_true_eq]
        exact ⟨⟨hlo, ha⟩, h3⟩
      · simp only [Memory.wfFrom, Bool.and_eq_true, decide_eq_true_eq]
        exact ⟨⟨h1, h2⟩, ih h3 (by omega)⟩

theorem Memory.wf_write (hm : Memory.wf bound m = true) (ha : a < bound) :
    Memory.wf bound (Memory.write m a b) = true := Memory.wfFrom_write hm (Nat.zero_le _) ha

theorem Memory.wfFrom_mono {lo' : Nat} (h : lo' ≤ lo) (hm : Memory.wfFrom bound lo m = true) :
    Memory.wfFrom bound lo' m = true := by
  cases m with
  | nil => rfl
  | cons c m =>
    obtain ⟨x, y⟩ := c
    simp only [Memory.wfFrom, Bool.and_eq_true, decide_eq_true_eq] at hm ⊢
    exact ⟨⟨by omega, hm.1.2⟩, hm.2⟩

theorem Memory.wfFrom_erase (hm : Memory.wfFrom bound lo m = true) :
    Memory.wfFrom bound lo (Memory.erase m a) = true := by
  induction m generalizing lo with
  | nil => rfl
  | cons c m ih =>
    obtain ⟨x, y⟩ := c
    simp only [Memory.wfFrom, Bool.and_eq_true, decide_eq_true_eq] at hm
    unfold Memory.erase
    split
    · exact Memory.wfFrom_mono (by omega) hm.2
    · simp only [Memory.wfFrom, Bool.and_eq_true, decide_eq_true_eq]
      exact ⟨hm.1, ih hm.2⟩

/-- Below its first address a canonical store lists nothing. -/
theorem Memory.read_below (hm : Memory.wfFrom bound lo m = true) (h : a < lo) : Memory.read m a = none := by
  induction m generalizing lo with
  | nil => rfl
  | cons c m ih =>
    obtain ⟨x, y⟩ := c
    simp only [Memory.wfFrom, Bool.and_eq_true, decide_eq_true_eq] at hm
    rw [Memory.read, if_neg (by omega)]
    exact ih hm.2 (by omega)

theorem Memory.read_erase (hm : Memory.wfFrom bound lo m = true) :
    Memory.read (Memory.erase m a) a' = if a' = a then none else Memory.read m a' := by
  induction m generalizing lo with
  | nil => simp [Memory.erase, Memory.read]
  | cons c m ih =>
    obtain ⟨x, y⟩ := c
    simp only [Memory.wfFrom, Bool.and_eq_true, decide_eq_true_eq] at hm
    unfold Memory.erase
    by_cases hx : x = a
    · subst x
      rw [if_pos rfl]
      by_cases h : a' = a
      · subst a'
        rw [if_pos rfl]
        exact Memory.read_below hm.2 (by omega)
      · rw [if_neg h, Memory.read, if_neg (fun e => h e.symm)]
    · rw [if_neg hx, Memory.read, ih hm.2, Memory.read]
      by_cases h : a' = a
      · subst a'
        rw [if_pos rfl, if_neg hx, if_pos rfl]
      · rw [if_neg h, if_neg h]

/-- A canonical store lists no address from its bound on. -/
theorem Memory.read_beyond (hm : Memory.wfFrom bound lo m = true) (h : bound ≤ a) : Memory.read m a = none := by
  induction m generalizing lo with
  | nil => rfl
  | cons c m ih =>
    obtain ⟨x, y⟩ := c
    simp only [Memory.wfFrom, Bool.and_eq_true, decide_eq_true_eq] at hm
    rw [Memory.read, if_neg (by omega)]
    exact ih hm.2

/-- Canonical stores that read alike are equal data. -/
theorem Memory.eq_of_read {m' : Memory} (hm : Memory.wfFrom bound lo m = true) (hm' : Memory.wfFrom bound lo m' = true)
    (h : ∀ x, Memory.read m x = Memory.read m' x) : m = m' := by
  induction m generalizing lo m' with
  | nil =>
    cases m' with
    | nil => rfl
    | cons c m' =>
      have h1 := h c.1
      simp [Memory.read] at h1
  | cons c m ih =>
    obtain ⟨x, y⟩ := c
    cases m' with
    | nil =>
      have h1 := h x
      simp [Memory.read] at h1
    | cons c' m' =>
      obtain ⟨x', y'⟩ := c'
      simp only [Memory.wfFrom, Bool.and_eq_true, decide_eq_true_eq] at hm hm'
      have hxx : x = x' := by
        rcases Nat.lt_trichotomy x x' with hl | he | hg
        · have h1 := h x
          rw [Memory.read, if_pos rfl, Memory.read, if_neg (by omega), Memory.read_below hm'.2 (by omega)] at h1
          cases h1
        · exact he
        · have h1 := h x'
          rw [Memory.read, if_neg (by omega), Memory.read_below hm.2 (by omega), Memory.read, if_pos rfl] at h1
          cases h1
      subst x'
      have hyy : y = y' := by
        have h1 := h x
        simpa [Memory.read] using h1
      subst y'
      have hrest : m = m' := by
        refine ih hm.2 hm'.2 fun z => ?_
        by_cases hz : x = z
        · subst z
          rw [Memory.read_below hm.2 (by omega), Memory.read_below hm'.2 (by omega)]
        · have h1 := h z
          rwa [Memory.read, if_neg hz, Memory.read, if_neg hz] at h1
      rw [hrest]

theorem Memory.mem_erase {x : Host.Cell} (h : x ∈ Memory.erase m a) : x ∈ m := by
  induction m with
  | nil => exact h
  | cons c m ih =>
    obtain ⟨u, v⟩ := c
    unfold Memory.erase at h
    split at h
    · exact List.mem_cons_of_mem _ h
    · rcases List.mem_cons.mp h with h | h
      · exact List.mem_cons.mpr (Or.inl h)
      · exact List.mem_cons.mpr (Or.inr (ih h))

theorem Memory.mem_write {x : Host.Cell} (h : x ∈ Memory.write m a b) : x = (a, b) ∨ x ∈ m := by
  induction m with
  | nil =>
    simp only [Memory.write, List.mem_singleton] at h
    exact Or.inl h
  | cons c m ih =>
    obtain ⟨u, v⟩ := c
    unfold Memory.write at h
    split at h
    · exact List.mem_cons.mp h
    · split at h
      · rcases List.mem_cons.mp h with h | h
        · exact Or.inl h
        · exact Or.inr (List.mem_cons_of_mem _ h)
      · rcases List.mem_cons.mp h with h | h
        · exact Or.inr (List.mem_cons.mpr (Or.inl h))
        · exact (ih h).imp id (List.mem_cons_of_mem _)

/-- Placing a byte of a launch image keeps the image canonical. -/
theorem Memory.imageWf_imageWrite {ad : Addr16} (hm : Memory.imageWf m = true) :
    Memory.imageWf (Memory.imageWrite m ad b) = true := by
  simp only [Memory.imageWf, Bool.and_eq_true, List.all_eq_true, bne_iff_ne, ne_eq] at hm ⊢
  unfold Memory.imageWrite
  split
  · exact ⟨Memory.wfFrom_erase hm.1, fun x hx => hm.2 x (Memory.mem_erase hx)⟩
  · refine ⟨Memory.wf_write hm.1 ad.isLt, fun x hx => ?_⟩
    rcases Memory.mem_write hx with h | h
    · subst h
      assumption
    · exact hm.2 x h

/-- A byte of an image reads as last placed, and no other byte changes. -/
theorem Memory.imageRead_imageWrite {ad ad' : Addr16} (hm : Memory.imageWf m = true) :
    Memory.imageRead (Memory.imageWrite m ad b) ad' = if ad' = ad then b else Memory.imageRead m ad' := by
  simp only [Memory.imageWf, Bool.and_eq_true] at hm
  have hne : ad' ≠ ad → ad'.toNat ≠ ad.toNat := fun h e => h (BitVec.eq_of_toNat_eq e)
  unfold Memory.imageRead Memory.imageWrite
  by_cases hb : b = 0#8
  · rw [if_pos hb, Memory.read_erase hm.1]
    by_cases h : ad' = ad
    · rw [if_pos h, if_pos (by rw [h]), hb]
      rfl
    · rw [if_neg h, if_neg (hne h)]
  · rw [if_neg hb, Memory.read_write]
    by_cases h : ad' = ad
    · rw [if_pos h, if_pos (by rw [h])]
      rfl
    · rw [if_neg h, if_neg (hne h)]

end Sys2Proof.Machine
end

