-- ==== Sys2Proof/Laws/Ring.lean ====
section
/-! SUPPORT. Ring arithmetic of FIFO indices: what `ringDist` and `ringNext` do on indices below the capacity. -/

namespace Sys2Proof

variable {c a b d k : Nat}

theorem ringNext_lt (hc : 0 < c) : ringNext c a < c := Nat.mod_lt _ hc

theorem ringDist_lt (hc : 0 < c) : ringDist c a b < c := Nat.mod_lt _ hc

theorem ringNext_eq (ha : a < c) : ringNext c a = if a + 1 = c then 0 else a + 1 := by
  unfold ringNext
  split
  · next h => rw [h, Nat.mod_self]
  · exact Nat.mod_eq_of_lt (by omega)

theorem ringDist_eq (ha : a < c) (hb : b < c) : ringDist c a b = if a ≤ b then b - a else c + b - a := by
  unfold ringDist
  split
  · have h : c + b - a = c + (b - a) := by omega
    rw [h, Nat.add_mod_left]
    exact Nat.mod_eq_of_lt (by omega)
  · exact Nat.mod_eq_of_lt (by omega)

@[simp] theorem ringDist_self : ringDist c a a = 0 := by
  unfold ringDist
  rw [Nat.add_sub_cancel, Nat.mod_self]

theorem ringDist_eq_zero (ha : a < c) (hb : b < c) : ringDist c a b = 0 ↔ a = b := by
  rw [ringDist_eq ha hb]
  split <;> omega

/-- The FIFO is full exactly when the distance from tail to head is the usable capacity. -/
theorem ringNext_eq_iff (ha : a < c) (hb : b < c) : ringNext c b = a ↔ ringDist c a b = c - 1 := by
  rw [ringDist_eq ha hb, ringNext_eq hb]
  split <;> split <;> omega

theorem ringDist_next_right (ha : a < c) (hb : b < c) (h : ringNext c b ≠ a) :
    ringDist c a (ringNext c b) = ringDist c a b + 1 := by
  have hn : ringNext c b < c := ringNext_lt (by omega)
  have he := ringNext_eq hb
  rw [ringDist_eq ha hn, ringDist_eq ha hb]
  generalize ringNext c b = n at *
  split at he <;> split <;> split <;> omega

theorem ringDist_next_left (ha : a < c) (hb : b < c) (h : a ≠ b) :
    ringDist c (ringNext c a) b + 1 = ringDist c a b := by
  have hn : ringNext c a < c := ringNext_lt (by omega)
  have he := ringNext_eq ha
  rw [ringDist_eq hn hb, ringDist_eq ha hb]
  generalize ringNext c a = n at *
  split at he <;> split <;> split <;> omega

/-- Distances add as long as the sum stays below the capacity. -/
theorem ringDist_add (ha : a < c) (hb : b < c) (hd : d < c) (h : ringDist c a b + ringDist c b d < c) :
    ringDist c a d = ringDist c a b + ringDist c b d := by
  rw [ringDist_eq ha hb, ringDist_eq hb hd] at *
  rw [ringDist_eq ha hd]
  split at * <;> split at * <;> split <;> omega

theorem ringDist_reaches (ha : a < c) (hb : b < c) : (a + ringDist c a b) % c = b := by
  rw [ringDist_eq ha hb]
  split
  · rw [Nat.add_sub_cancel' ‹_›]
    exact Nat.mod_eq_of_lt hb
  · have h : a + (c + b - a) = c + b := by omega
    rw [h, Nat.add_mod_left]
    exact Nat.mod_eq_of_lt hb

theorem ringNext_add : (ringNext c a + k) % c = (a + (k + 1)) % c := by
  unfold ringNext
  rw [Nat.mod_add_mod]
  congr 1
  omega

/-- Two offsets below the capacity that reach the same slot are equal. -/
theorem ring_offset_inj {j : Nat} (ha : a < c) (hk : k < c) (hj : j < c) (h : (a + k) % c = (a + j) % c) : k = j := by
  have h1 : ∀ n < c, (a + n) % c = if a + n < c then a + n else a + n - c := by
    intro n hn
    split
    · exact Nat.mod_eq_of_lt ‹_›
    · rw [Nat.mod_eq_sub_mod (by omega)]
      exact Nat.mod_eq_of_lt (by omega)
  rw [h1 k hk, h1 j hj] at h
  split at h <;> split at h <;> omega

end Sys2Proof
end

