-- ==== Sys2Proof/Laws/State.lean ====
section
/-! SUPPORT. One lemma per field per state update, each true by rfl: no later proof unfolds a record update. -/

namespace Sys2Proof.Machine

variable (s : State)

@[simp] theorem State.record_cfg (e : Event) :
    (s.record e).cfg = s.cfg := rfl
@[simp] theorem State.record_program (e : Event) :
    (s.record e).program = s.program := rfl
@[simp] theorem State.record_data (e : Event) :
    (s.record e).data = s.data := rfl
@[simp] theorem State.record_pgm (e : Event) :
    (s.record e).pgm = s.pgm := rfl
@[simp] theorem State.record_rx (e : Event) :
    (s.record e).rx = s.rx := rfl
@[simp] theorem State.record_tx (e : Event) :
    (s.record e).tx = s.tx := rfl
@[simp] theorem State.record_ctrl (e : Event) :
    (s.record e).ctrl = s.ctrl := rfl
@[simp] theorem State.record_ubrr (e : Event) :
    (s.record e).ubrr = s.ubrr := rfl
@[simp] theorem State.record_res (e : Event) :
    (s.record e).res = s.res := rfl
@[simp] theorem State.record_resWritten (e : Event) :
    (s.record e).resWritten = s.resWritten := rfl
@[simp] theorem State.record_fg (e : Event) :
    (s.record e).fg = s.fg := rfl
@[simp] theorem State.record_line (e : Event) :
    (s.record e).line = s.line := rfl
@[simp] theorem State.record_hist (e : Event) :
    (s.record e).hist = s.hist ++ [e] := rfl
@[simp] theorem State.record_mark (e : Event) :
    (s.record e).mark = s.mark := rfl
@[simp] theorem State.record_sched (e : Event) :
    (s.record e).sched = s.sched := rfl
@[simp] theorem State.record_turns (e : Event) :
    (s.record e).turns = s.turns := rfl

@[simp] theorem State.emit_cfg (b : Byte) :
    (s.emit b).cfg = s.cfg := rfl
@[simp] theorem State.emit_program (b : Byte) :
    (s.emit b).program = s.program := rfl
@[simp] theorem State.emit_data (b : Byte) :
    (s.emit b).data = s.data := rfl
@[simp] theorem State.emit_pgm (b : Byte) :
    (s.emit b).pgm = s.pgm := rfl
@[simp] theorem State.emit_rx (b : Byte) :
    (s.emit b).rx = s.rx := rfl
@[simp] theorem State.emit_tx (b : Byte) :
    (s.emit b).tx = s.tx := rfl
@[simp] theorem State.emit_ctrl (b : Byte) :
    (s.emit b).ctrl = s.ctrl := rfl
@[simp] theorem State.emit_ubrr (b : Byte) :
    (s.emit b).ubrr = s.ubrr := rfl
@[simp] theorem State.emit_res (b : Byte) :
    (s.emit b).res = s.res := rfl
@[simp] theorem State.emit_resWritten (b : Byte) :
    (s.emit b).resWritten = s.resWritten := rfl
@[simp] theorem State.emit_fg (b : Byte) :
    (s.emit b).fg = s.fg := rfl
@[simp] theorem State.emit_line (b : Byte) :
    (s.emit b).line = { s.line with out := s.line.out ++ [b] } := rfl
@[simp] theorem State.emit_hist (b : Byte) :
    (s.emit b).hist = s.hist := rfl
@[simp] theorem State.emit_mark (b : Byte) :
    (s.emit b).mark = s.mark := rfl
@[simp] theorem State.emit_sched (b : Byte) :
    (s.emit b).sched = s.sched := rfl
@[simp] theorem State.emit_turns (b : Byte) :
    (s.emit b).turns = s.turns := rfl

@[simp] theorem State.raiseFault_cfg (r : Fault) (w : CmdWord) :
    (s.raiseFault r w).cfg = s.cfg := rfl
@[simp] theorem State.raiseFault_program (r : Fault) (w : CmdWord) :
    (s.raiseFault r w).program = s.program := rfl
@[simp] theorem State.raiseFault_data (r : Fault) (w : CmdWord) :
    (s.raiseFault r w).data = s.data := rfl
@[simp] theorem State.raiseFault_pgm (r : Fault) (w : CmdWord) :
    (s.raiseFault r w).pgm = s.pgm := rfl
@[simp] theorem State.raiseFault_rx (r : Fault) (w : CmdWord) :
    (s.raiseFault r w).rx = s.rx := rfl
@[simp] theorem State.raiseFault_tx (r : Fault) (w : CmdWord) :
    (s.raiseFault r w).tx = s.tx := rfl
@[simp] theorem State.raiseFault_ctrl (r : Fault) (w : CmdWord) :
    (s.raiseFault r w).ctrl = s.ctrl := rfl
@[simp] theorem State.raiseFault_ubrr (r : Fault) (w : CmdWord) :
    (s.raiseFault r w).ubrr = s.ubrr := rfl
@[simp] theorem State.raiseFault_res (r : Fault) (w : CmdWord) :
    (s.raiseFault r w).res = s.res := rfl
@[simp] theorem State.raiseFault_resWritten (r : Fault) (w : CmdWord) :
    (s.raiseFault r w).resWritten = s.resWritten := rfl
@[simp] theorem State.raiseFault_fg (r : Fault) (w : CmdWord) :
    (s.raiseFault r w).fg = s.fg := rfl
@[simp] theorem State.raiseFault_line (r : Fault) (w : CmdWord) :
    (s.raiseFault r w).line = s.line := rfl
@[simp] theorem State.raiseFault_hist (r : Fault) (w : CmdWord) :
    (s.raiseFault r w).hist = s.hist ++ [.fault r w s.fg.pc] := rfl
@[simp] theorem State.raiseFault_mark (r : Fault) (w : CmdWord) :
    (s.raiseFault r w).mark = { s.mark with fault := s.mark.fault <|> some r } := rfl
@[simp] theorem State.raiseFault_sched (r : Fault) (w : CmdWord) :
    (s.raiseFault r w).sched = s.sched := rfl
@[simp] theorem State.raiseFault_turns (r : Fault) (w : CmdWord) :
    (s.raiseFault r w).turns = s.turns := rfl

@[simp] theorem State.refuse_cfg (r : RefuseReason) (w : CmdWord) :
    (s.refuse r w).cfg = s.cfg := rfl
@[simp] theorem State.refuse_program (r : RefuseReason) (w : CmdWord) :
    (s.refuse r w).program = s.program := rfl
@[simp] theorem State.refuse_data (r : RefuseReason) (w : CmdWord) :
    (s.refuse r w).data = s.data := rfl
@[simp] theorem State.refuse_pgm (r : RefuseReason) (w : CmdWord) :
    (s.refuse r w).pgm = s.pgm := rfl
@[simp] theorem State.refuse_rx (r : RefuseReason) (w : CmdWord) :
    (s.refuse r w).rx = s.rx := rfl
@[simp] theorem State.refuse_tx (r : RefuseReason) (w : CmdWord) :
    (s.refuse r w).tx = s.tx := rfl
@[simp] theorem State.refuse_ctrl (r : RefuseReason) (w : CmdWord) :
    (s.refuse r w).ctrl = s.ctrl := rfl
@[simp] theorem State.refuse_ubrr (r : RefuseReason) (w : CmdWord) :
    (s.refuse r w).ubrr = s.ubrr := rfl
@[simp] theorem State.refuse_res (r : RefuseReason) (w : CmdWord) :
    (s.refuse r w).res = s.res := rfl
@[simp] theorem State.refuse_resWritten (r : RefuseReason) (w : CmdWord) :
    (s.refuse r w).resWritten = s.resWritten := rfl
@[simp] theorem State.refuse_fg (r : RefuseReason) (w : CmdWord) :
    (s.refuse r w).fg = s.fg := rfl
@[simp] theorem State.refuse_line (r : RefuseReason) (w : CmdWord) :
    (s.refuse r w).line = s.line := rfl
@[simp] theorem State.refuse_hist (r : RefuseReason) (w : CmdWord) :
    (s.refuse r w).hist = s.hist ++ [.refused r w s.fg.pc] := rfl
@[simp] theorem State.refuse_mark (r : RefuseReason) (w : CmdWord) :
    (s.refuse r w).mark = { s.mark with refused := s.mark.refused <|> some r } := rfl
@[simp] theorem State.refuse_sched (r : RefuseReason) (w : CmdWord) :
    (s.refuse r w).sched = s.sched := rfl
@[simp] theorem State.refuse_turns (r : RefuseReason) (w : CmdWord) :
    (s.refuse r w).turns = s.turns := rfl

@[simp] theorem State.advance_cfg :
    (s.advance).cfg = s.cfg := rfl
@[simp] theorem State.advance_program :
    (s.advance).program = s.program := rfl
@[simp] theorem State.advance_data :
    (s.advance).data = s.data := rfl
@[simp] theorem State.advance_pgm :
    (s.advance).pgm = s.pgm := rfl
@[simp] theorem State.advance_rx :
    (s.advance).rx = s.rx := rfl
@[simp] theorem State.advance_tx :
    (s.advance).tx = s.tx := rfl
@[simp] theorem State.advance_ctrl :
    (s.advance).ctrl = s.ctrl := rfl
@[simp] theorem State.advance_ubrr :
    (s.advance).ubrr = s.ubrr := rfl
@[simp] theorem State.advance_res :
    (s.advance).res = s.res := rfl
@[simp] theorem State.advance_resWritten :
    (s.advance).resWritten = s.resWritten := rfl
@[simp] theorem State.advance_fg :
    (s.advance).fg = { s.fg with pc := s.fg.pc + 1 } := rfl
@[simp] theorem State.advance_line :
    (s.advance).line = s.line := rfl
@[simp] theorem State.advance_hist :
    (s.advance).hist = s.hist := rfl
@[simp] theorem State.advance_mark :
    (s.advance).mark = s.mark := rfl
@[simp] theorem State.advance_sched :
    (s.advance).sched = s.sched := rfl
@[simp] theorem State.advance_turns :
    (s.advance).turns = s.turns := rfl

@[simp] theorem State.complete_cfg :
    (s.complete).cfg = s.cfg := rfl
@[simp] theorem State.complete_program :
    (s.complete).program = s.program := rfl
@[simp] theorem State.complete_data :
    (s.complete).data = s.data := rfl
@[simp] theorem State.complete_pgm :
    (s.complete).pgm = s.pgm := rfl
@[simp] theorem State.complete_rx :
    (s.complete).rx = s.rx := rfl
@[simp] theorem State.complete_tx :
    (s.complete).tx = s.tx := rfl
@[simp] theorem State.complete_ctrl :
    (s.complete).ctrl = s.ctrl := rfl
@[simp] theorem State.complete_ubrr :
    (s.complete).ubrr = s.ubrr := rfl
@[simp] theorem State.complete_res :
    (s.complete).res = s.res := rfl
@[simp] theorem State.complete_resWritten :
    (s.complete).resWritten = s.resWritten := rfl
@[simp] theorem State.complete_fg :
    (s.complete).fg = { pc := s.fg.pc + 1, mode := .idle, pending := [], cursor := none } := rfl
@[simp] theorem State.complete_line :
    (s.complete).line = s.line := rfl
@[simp] theorem State.complete_hist :
    (s.complete).hist = s.hist := rfl
@[simp] theorem State.complete_mark :
    (s.complete).mark = s.mark := rfl
@[simp] theorem State.complete_sched :
    (s.complete).sched = s.sched := rfl
@[simp] theorem State.complete_turns :
    (s.complete).turns = s.turns := rfl

@[simp] theorem State.startBytes_cfg (bs : List Byte) :
    (s.startBytes bs).cfg = s.cfg := rfl
@[simp] theorem State.startBytes_program (bs : List Byte) :
    (s.startBytes bs).program = s.program := rfl
@[simp] theorem State.startBytes_data (bs : List Byte) :
    (s.startBytes bs).data = s.data := rfl
@[simp] theorem State.startBytes_pgm (bs : List Byte) :
    (s.startBytes bs).pgm = s.pgm := rfl
@[simp] theorem State.startBytes_rx (bs : List Byte) :
    (s.startBytes bs).rx = s.rx := rfl
@[simp] theorem State.startBytes_tx (bs : List Byte) :
    (s.startBytes bs).tx = s.tx := rfl
@[simp] theorem State.startBytes_ctrl (bs : List Byte) :
    (s.startBytes bs).ctrl = s.ctrl := rfl
@[simp] theorem State.startBytes_ubrr (bs : List Byte) :
    (s.startBytes bs).ubrr = s.ubrr := rfl
@[simp] theorem State.startBytes_res (bs : List Byte) :
    (s.startBytes bs).res = s.res := rfl
@[simp] theorem State.startBytes_resWritten (bs : List Byte) :
    (s.startBytes bs).resWritten = s.resWritten := rfl
@[simp] theorem State.startBytes_fg (bs : List Byte) :
    (s.startBytes bs).fg = { s.fg with mode := .busy, pending := bs } := rfl
@[simp] theorem State.startBytes_line (bs : List Byte) :
    (s.startBytes bs).line = s.line := rfl
@[simp] theorem State.startBytes_hist (bs : List Byte) :
    (s.startBytes bs).hist = s.hist := rfl
@[simp] theorem State.startBytes_mark (bs : List Byte) :
    (s.startBytes bs).mark = s.mark := rfl
@[simp] theorem State.startBytes_sched (bs : List Byte) :
    (s.startBytes bs).sched = s.sched := rfl
@[simp] theorem State.startBytes_turns (bs : List Byte) :
    (s.startBytes bs).turns = s.turns := rfl

@[simp] theorem State.startString_cfg (sp : Space) (a : Addr16) :
    (s.startString sp a).cfg = s.cfg := rfl
@[simp] theorem State.startString_program (sp : Space) (a : Addr16) :
    (s.startString sp a).program = s.program := rfl
@[simp] theorem State.startString_data (sp : Space) (a : Addr16) :
    (s.startString sp a).data = s.data := rfl
@[simp] theorem State.startString_pgm (sp : Space) (a : Addr16) :
    (s.startString sp a).pgm = s.pgm := rfl
@[simp] theorem State.startString_rx (sp : Space) (a : Addr16) :
    (s.startString sp a).rx = s.rx := rfl
@[simp] theorem State.startString_tx (sp : Space) (a : Addr16) :
    (s.startString sp a).tx = s.tx := rfl
@[simp] theorem State.startString_ctrl (sp : Space) (a : Addr16) :
    (s.startString sp a).ctrl = s.ctrl := rfl
@[simp] theorem State.startString_ubrr (sp : Space) (a : Addr16) :
    (s.startString sp a).ubrr = s.ubrr := rfl
@[simp] theorem State.startString_res (sp : Space) (a : Addr16) :
    (s.startString sp a).res = s.res := rfl
@[simp] theorem State.startString_resWritten (sp : Space) (a : Addr16) :
    (s.startString sp a).resWritten = s.resWritten := rfl
@[simp] theorem State.startString_fg (sp : Space) (a : Addr16) :
    (s.startString sp a).fg = { s.fg with mode := .busy, cursor := some (sp, a) } := rfl
@[simp] theorem State.startString_line (sp : Space) (a : Addr16) :
    (s.startString sp a).line = s.line := rfl
@[simp] theorem State.startString_hist (sp : Space) (a : Addr16) :
    (s.startString sp a).hist = s.hist := rfl
@[simp] theorem State.startString_mark (sp : Space) (a : Addr16) :
    (s.startString sp a).mark = s.mark := rfl
@[simp] theorem State.startString_sched (sp : Space) (a : Addr16) :
    (s.startString sp a).sched = s.sched := rfl
@[simp] theorem State.startString_turns (sp : Space) (a : Addr16) :
    (s.startString sp a).turns = s.turns := rfl

@[simp] theorem State.setPending_cfg (bs : List Byte) :
    (s.setPending bs).cfg = s.cfg := rfl
@[simp] theorem State.setPending_program (bs : List Byte) :
    (s.setPending bs).program = s.program := rfl
@[simp] theorem State.setPending_data (bs : List Byte) :
    (s.setPending bs).data = s.data := rfl
@[simp] theorem State.setPending_pgm (bs : List Byte) :
    (s.setPending bs).pgm = s.pgm := rfl
@[simp] theorem State.setPending_rx (bs : List Byte) :
    (s.setPending bs).rx = s.rx := rfl
@[simp] theorem State.setPending_tx (bs : List Byte) :
    (s.setPending bs).tx = s.tx := rfl
@[simp] theorem State.setPending_ctrl (bs : List Byte) :
    (s.setPending bs).ctrl = s.ctrl := rfl
@[simp] theorem State.setPending_ubrr (bs : List Byte) :
    (s.setPending bs).ubrr = s.ubrr := rfl
@[simp] theorem State.setPending_res (bs : List Byte) :
    (s.setPending bs).res = s.res := rfl
@[simp] theorem State.setPending_resWritten (bs : List Byte) :
    (s.setPending bs).resWritten = s.resWritten := rfl
@[simp] theorem State.setPending_fg (bs : List Byte) :
    (s.setPending bs).fg = { s.fg with pending := bs } := rfl
@[simp] theorem State.setPending_line (bs : List Byte) :
    (s.setPending bs).line = s.line := rfl
@[simp] theorem State.setPending_hist (bs : List Byte) :
    (s.setPending bs).hist = s.hist := rfl
@[simp] theorem State.setPending_mark (bs : List Byte) :
    (s.setPending bs).mark = s.mark := rfl
@[simp] theorem State.setPending_sched (bs : List Byte) :
    (s.setPending bs).sched = s.sched := rfl
@[simp] theorem State.setPending_turns (bs : List Byte) :
    (s.setPending bs).turns = s.turns := rfl

@[simp] theorem State.setCursor_cfg (sp : Space) (a : Addr16) :
    (s.setCursor sp a).cfg = s.cfg := rfl
@[simp] theorem State.setCursor_program (sp : Space) (a : Addr16) :
    (s.setCursor sp a).program = s.program := rfl
@[simp] theorem State.setCursor_data (sp : Space) (a : Addr16) :
    (s.setCursor sp a).data = s.data := rfl
@[simp] theorem State.setCursor_pgm (sp : Space) (a : Addr16) :
    (s.setCursor sp a).pgm = s.pgm := rfl
@[simp] theorem State.setCursor_rx (sp : Space) (a : Addr16) :
    (s.setCursor sp a).rx = s.rx := rfl
@[simp] theorem State.setCursor_tx (sp : Space) (a : Addr16) :
    (s.setCursor sp a).tx = s.tx := rfl
@[simp] theorem State.setCursor_ctrl (sp : Space) (a : Addr16) :
    (s.setCursor sp a).ctrl = s.ctrl := rfl
@[simp] theorem State.setCursor_ubrr (sp : Space) (a : Addr16) :
    (s.setCursor sp a).ubrr = s.ubrr := rfl
@[simp] theorem State.setCursor_res (sp : Space) (a : Addr16) :
    (s.setCursor sp a).res = s.res := rfl
@[simp] theorem State.setCursor_resWritten (sp : Space) (a : Addr16) :
    (s.setCursor sp a).resWritten = s.resWritten := rfl
@[simp] theorem State.setCursor_fg (sp : Space) (a : Addr16) :
    (s.setCursor sp a).fg = { s.fg with cursor := some (sp, a) } := rfl
@[simp] theorem State.setCursor_line (sp : Space) (a : Addr16) :
    (s.setCursor sp a).line = s.line := rfl
@[simp] theorem State.setCursor_hist (sp : Space) (a : Addr16) :
    (s.setCursor sp a).hist = s.hist := rfl
@[simp] theorem State.setCursor_mark (sp : Space) (a : Addr16) :
    (s.setCursor sp a).mark = s.mark := rfl
@[simp] theorem State.setCursor_sched (sp : Space) (a : Addr16) :
    (s.setCursor sp a).sched = s.sched := rfl
@[simp] theorem State.setCursor_turns (sp : Space) (a : Addr16) :
    (s.setCursor sp a).turns = s.turns := rfl

@[simp] theorem State.writeRes_cfg (v : BitVec 16) :
    (s.writeRes v).cfg = s.cfg := rfl
@[simp] theorem State.writeRes_program (v : BitVec 16) :
    (s.writeRes v).program = s.program := rfl
@[simp] theorem State.writeRes_data (v : BitVec 16) :
    (s.writeRes v).data = s.data := rfl
@[simp] theorem State.writeRes_pgm (v : BitVec 16) :
    (s.writeRes v).pgm = s.pgm := rfl
@[simp] theorem State.writeRes_rx (v : BitVec 16) :
    (s.writeRes v).rx = s.rx := rfl
@[simp] theorem State.writeRes_tx (v : BitVec 16) :
    (s.writeRes v).tx = s.tx := rfl
@[simp] theorem State.writeRes_ctrl (v : BitVec 16) :
    (s.writeRes v).ctrl = s.ctrl := rfl
@[simp] theorem State.writeRes_ubrr (v : BitVec 16) :
    (s.writeRes v).ubrr = s.ubrr := rfl
@[simp] theorem State.writeRes_res (v : BitVec 16) :
    (s.writeRes v).res = v := rfl
@[simp] theorem State.writeRes_resWritten (v : BitVec 16) :
    (s.writeRes v).resWritten = true := rfl
@[simp] theorem State.writeRes_fg (v : BitVec 16) :
    (s.writeRes v).fg = s.fg := rfl
@[simp] theorem State.writeRes_line (v : BitVec 16) :
    (s.writeRes v).line = s.line := rfl
@[simp] theorem State.writeRes_hist (v : BitVec 16) :
    (s.writeRes v).hist = s.hist := rfl
@[simp] theorem State.writeRes_mark (v : BitVec 16) :
    (s.writeRes v).mark = s.mark := rfl
@[simp] theorem State.writeRes_sched (v : BitVec 16) :
    (s.writeRes v).sched = s.sched := rfl
@[simp] theorem State.writeRes_turns (v : BitVec 16) :
    (s.writeRes v).turns = s.turns := rfl

@[simp] theorem State.writeUbrr_cfg (v : BitVec 16) :
    (s.writeUbrr v).cfg = s.cfg := rfl
@[simp] theorem State.writeUbrr_program (v : BitVec 16) :
    (s.writeUbrr v).program = s.program := rfl
@[simp] theorem State.writeUbrr_data (v : BitVec 16) :
    (s.writeUbrr v).data = s.data := rfl
@[simp] theorem State.writeUbrr_pgm (v : BitVec 16) :
    (s.writeUbrr v).pgm = s.pgm := rfl
@[simp] theorem State.writeUbrr_rx (v : BitVec 16) :
    (s.writeUbrr v).rx = s.rx := rfl
@[simp] theorem State.writeUbrr_tx (v : BitVec 16) :
    (s.writeUbrr v).tx = s.tx := rfl
@[simp] theorem State.writeUbrr_ctrl (v : BitVec 16) :
    (s.writeUbrr v).ctrl = s.ctrl := rfl
@[simp] theorem State.writeUbrr_ubrr (v : BitVec 16) :
    (s.writeUbrr v).ubrr = v := rfl
@[simp] theorem State.writeUbrr_res (v : BitVec 16) :
    (s.writeUbrr v).res = s.res := rfl
@[simp] theorem State.writeUbrr_resWritten (v : BitVec 16) :
    (s.writeUbrr v).resWritten = s.resWritten := rfl
@[simp] theorem State.writeUbrr_fg (v : BitVec 16) :
    (s.writeUbrr v).fg = s.fg := rfl
@[simp] theorem State.writeUbrr_line (v : BitVec 16) :
    (s.writeUbrr v).line = s.line := rfl
@[simp] theorem State.writeUbrr_hist (v : BitVec 16) :
    (s.writeUbrr v).hist = s.hist := rfl
@[simp] theorem State.writeUbrr_mark (v : BitVec 16) :
    (s.writeUbrr v).mark = s.mark := rfl
@[simp] theorem State.writeUbrr_sched (v : BitVec 16) :
    (s.writeUbrr v).sched = s.sched := rfl
@[simp] theorem State.writeUbrr_turns (v : BitVec 16) :
    (s.writeUbrr v).turns = s.turns := rfl

@[simp] theorem State.setRxTail_cfg (i : Nat) :
    (s.setRxTail i).cfg = s.cfg := rfl
@[simp] theorem State.setRxTail_program (i : Nat) :
    (s.setRxTail i).program = s.program := rfl
@[simp] theorem State.setRxTail_data (i : Nat) :
    (s.setRxTail i).data = s.data := rfl
@[simp] theorem State.setRxTail_pgm (i : Nat) :
    (s.setRxTail i).pgm = s.pgm := rfl
@[simp] theorem State.setRxTail_rx (i : Nat) :
    (s.setRxTail i).rx = { s.rx with tail := i, tailGray := grayCode s.cfg.cRx i } := rfl
@[simp] theorem State.setRxTail_tx (i : Nat) :
    (s.setRxTail i).tx = s.tx := rfl
@[simp] theorem State.setRxTail_ctrl (i : Nat) :
    (s.setRxTail i).ctrl = s.ctrl := rfl
@[simp] theorem State.setRxTail_ubrr (i : Nat) :
    (s.setRxTail i).ubrr = s.ubrr := rfl
@[simp] theorem State.setRxTail_res (i : Nat) :
    (s.setRxTail i).res = s.res := rfl
@[simp] theorem State.setRxTail_resWritten (i : Nat) :
    (s.setRxTail i).resWritten = s.resWritten := rfl
@[simp] theorem State.setRxTail_fg (i : Nat) :
    (s.setRxTail i).fg = s.fg := rfl
@[simp] theorem State.setRxTail_line (i : Nat) :
    (s.setRxTail i).line = s.line := rfl
@[simp] theorem State.setRxTail_hist (i : Nat) :
    (s.setRxTail i).hist = s.hist := rfl
@[simp] theorem State.setRxTail_mark (i : Nat) :
    (s.setRxTail i).mark = s.mark := rfl
@[simp] theorem State.setRxTail_sched (i : Nat) :
    (s.setRxTail i).sched = s.sched := rfl
@[simp] theorem State.setRxTail_turns (i : Nat) :
    (s.setRxTail i).turns = s.turns := rfl

@[simp] theorem State.storeRx_cfg (b : Byte) :
    (s.storeRx b).cfg = s.cfg := rfl
@[simp] theorem State.storeRx_program (b : Byte) :
    (s.storeRx b).program = s.program := rfl
@[simp] theorem State.storeRx_data (b : Byte) :
    (s.storeRx b).data = s.data := rfl
@[simp] theorem State.storeRx_pgm (b : Byte) :
    (s.storeRx b).pgm = s.pgm := rfl
@[simp] theorem State.storeRx_rx (b : Byte) :
    (s.storeRx b).rx = { s.rx with
        mem := Memory.write s.rx.mem s.rx.head b
        head := ringNext s.cfg.cRx s.rx.head
        headGray := grayCode s.cfg.cRx (ringNext s.cfg.cRx s.rx.head) } := rfl
@[simp] theorem State.storeRx_tx (b : Byte) :
    (s.storeRx b).tx = s.tx := rfl
@[simp] theorem State.storeRx_ctrl (b : Byte) :
    (s.storeRx b).ctrl = s.ctrl := rfl
@[simp] theorem State.storeRx_ubrr (b : Byte) :
    (s.storeRx b).ubrr = s.ubrr := rfl
@[simp] theorem State.storeRx_res (b : Byte) :
    (s.storeRx b).res = s.res := rfl
@[simp] theorem State.storeRx_resWritten (b : Byte) :
    (s.storeRx b).resWritten = s.resWritten := rfl
@[simp] theorem State.storeRx_fg (b : Byte) :
    (s.storeRx b).fg = s.fg := rfl
@[simp] theorem State.storeRx_line (b : Byte) :
    (s.storeRx b).line = s.line := rfl
@[simp] theorem State.storeRx_hist (b : Byte) :
    (s.storeRx b).hist = s.hist := rfl
@[simp] theorem State.storeRx_mark (b : Byte) :
    (s.storeRx b).mark = s.mark := rfl
@[simp] theorem State.storeRx_sched (b : Byte) :
    (s.storeRx b).sched = s.sched := rfl
@[simp] theorem State.storeRx_turns (b : Byte) :
    (s.storeRx b).turns = s.turns := rfl

@[simp] theorem State.takeOffered_cfg :
    (s.takeOffered).cfg = s.cfg := rfl
@[simp] theorem State.takeOffered_program :
    (s.takeOffered).program = s.program := rfl
@[simp] theorem State.takeOffered_data :
    (s.takeOffered).data = s.data := rfl
@[simp] theorem State.takeOffered_pgm :
    (s.takeOffered).pgm = s.pgm := rfl
@[simp] theorem State.takeOffered_rx :
    (s.takeOffered).rx = s.rx := rfl
@[simp] theorem State.takeOffered_tx :
    (s.takeOffered).tx = s.tx := rfl
@[simp] theorem State.takeOffered_ctrl :
    (s.takeOffered).ctrl = s.ctrl := rfl
@[simp] theorem State.takeOffered_ubrr :
    (s.takeOffered).ubrr = s.ubrr := rfl
@[simp] theorem State.takeOffered_res :
    (s.takeOffered).res = s.res := rfl
@[simp] theorem State.takeOffered_resWritten :
    (s.takeOffered).resWritten = s.resWritten := rfl
@[simp] theorem State.takeOffered_fg :
    (s.takeOffered).fg = s.fg := rfl
@[simp] theorem State.takeOffered_line :
    (s.takeOffered).line = { s.line with inp := s.line.inp.tail } := rfl
@[simp] theorem State.takeOffered_hist :
    (s.takeOffered).hist = s.hist := rfl
@[simp] theorem State.takeOffered_mark :
    (s.takeOffered).mark = s.mark := rfl
@[simp] theorem State.takeOffered_sched :
    (s.takeOffered).sched = s.sched := rfl
@[simp] theorem State.takeOffered_turns :
    (s.takeOffered).turns = s.turns := rfl

@[simp] theorem State.storeTx_cfg (b : Byte) :
    (s.storeTx b).cfg = s.cfg := rfl
@[simp] theorem State.storeTx_program (b : Byte) :
    (s.storeTx b).program = s.program := rfl
@[simp] theorem State.storeTx_data (b : Byte) :
    (s.storeTx b).data = s.data := rfl
@[simp] theorem State.storeTx_pgm (b : Byte) :
    (s.storeTx b).pgm = s.pgm := rfl
@[simp] theorem State.storeTx_rx (b : Byte) :
    (s.storeTx b).rx = s.rx := rfl
@[simp] theorem State.storeTx_tx (b : Byte) :
    (s.storeTx b).tx = { s.tx with
        mem := Memory.write s.tx.mem s.tx.head b
        head := ringNext s.cfg.cTx s.tx.head } := rfl
@[simp] theorem State.storeTx_ctrl (b : Byte) :
    (s.storeTx b).ctrl = s.ctrl := rfl
@[simp] theorem State.storeTx_ubrr (b : Byte) :
    (s.storeTx b).ubrr = s.ubrr := rfl
@[simp] theorem State.storeTx_res (b : Byte) :
    (s.storeTx b).res = s.res := rfl
@[simp] theorem State.storeTx_resWritten (b : Byte) :
    (s.storeTx b).resWritten = s.resWritten := rfl
@[simp] theorem State.storeTx_fg (b : Byte) :
    (s.storeTx b).fg = s.fg := rfl
@[simp] theorem State.storeTx_line (b : Byte) :
    (s.storeTx b).line = s.line := rfl
@[simp] theorem State.storeTx_hist (b : Byte) :
    (s.storeTx b).hist = s.hist := rfl
@[simp] theorem State.storeTx_mark (b : Byte) :
    (s.storeTx b).mark = s.mark := rfl
@[simp] theorem State.storeTx_sched (b : Byte) :
    (s.storeTx b).sched = s.sched := rfl
@[simp] theorem State.storeTx_turns (b : Byte) :
    (s.storeTx b).turns = s.turns := rfl

@[simp] theorem State.advanceTxTail_cfg :
    (s.advanceTxTail).cfg = s.cfg := rfl
@[simp] theorem State.advanceTxTail_program :
    (s.advanceTxTail).program = s.program := rfl
@[simp] theorem State.advanceTxTail_data :
    (s.advanceTxTail).data = s.data := rfl
@[simp] theorem State.advanceTxTail_pgm :
    (s.advanceTxTail).pgm = s.pgm := rfl
@[simp] theorem State.advanceTxTail_rx :
    (s.advanceTxTail).rx = s.rx := rfl
@[simp] theorem State.advanceTxTail_tx :
    (s.advanceTxTail).tx = { s.tx with tail := ringNext s.cfg.cTx s.tx.tail } := rfl
@[simp] theorem State.advanceTxTail_ctrl :
    (s.advanceTxTail).ctrl = s.ctrl := rfl
@[simp] theorem State.advanceTxTail_ubrr :
    (s.advanceTxTail).ubrr = s.ubrr := rfl
@[simp] theorem State.advanceTxTail_res :
    (s.advanceTxTail).res = s.res := rfl
@[simp] theorem State.advanceTxTail_resWritten :
    (s.advanceTxTail).resWritten = s.resWritten := rfl
@[simp] theorem State.advanceTxTail_fg :
    (s.advanceTxTail).fg = s.fg := rfl
@[simp] theorem State.advanceTxTail_line :
    (s.advanceTxTail).line = s.line := rfl
@[simp] theorem State.advanceTxTail_hist :
    (s.advanceTxTail).hist = s.hist := rfl
@[simp] theorem State.advanceTxTail_mark :
    (s.advanceTxTail).mark = s.mark := rfl
@[simp] theorem State.advanceTxTail_sched :
    (s.advanceTxTail).sched = s.sched := rfl
@[simp] theorem State.advanceTxTail_turns :
    (s.advanceTxTail).turns = s.turns := rfl

@[simp] theorem State.syncHeadView_cfg :
    (s.syncHeadView).cfg = s.cfg := rfl
@[simp] theorem State.syncHeadView_program :
    (s.syncHeadView).program = s.program := rfl
@[simp] theorem State.syncHeadView_data :
    (s.syncHeadView).data = s.data := rfl
@[simp] theorem State.syncHeadView_pgm :
    (s.syncHeadView).pgm = s.pgm := rfl
@[simp] theorem State.syncHeadView_rx :
    (s.syncHeadView).rx =
      { s.rx with headView := s.rx.head, headSync := List.replicate s.cfg.syncStages s.rx.headGray } := rfl
@[simp] theorem State.syncHeadView_tx :
    (s.syncHeadView).tx = s.tx := rfl
@[simp] theorem State.syncHeadView_ctrl :
    (s.syncHeadView).ctrl = s.ctrl := rfl
@[simp] theorem State.syncHeadView_ubrr :
    (s.syncHeadView).ubrr = s.ubrr := rfl
@[simp] theorem State.syncHeadView_res :
    (s.syncHeadView).res = s.res := rfl
@[simp] theorem State.syncHeadView_resWritten :
    (s.syncHeadView).resWritten = s.resWritten := rfl
@[simp] theorem State.syncHeadView_fg :
    (s.syncHeadView).fg = s.fg := rfl
@[simp] theorem State.syncHeadView_line :
    (s.syncHeadView).line = s.line := rfl
@[simp] theorem State.syncHeadView_hist :
    (s.syncHeadView).hist = s.hist := rfl
@[simp] theorem State.syncHeadView_mark :
    (s.syncHeadView).mark = s.mark := rfl
@[simp] theorem State.syncHeadView_sched :
    (s.syncHeadView).sched = s.sched := rfl
@[simp] theorem State.syncHeadView_turns :
    (s.syncHeadView).turns = s.turns := rfl

@[simp] theorem State.syncTailView_cfg :
    (s.syncTailView).cfg = s.cfg := rfl
@[simp] theorem State.syncTailView_program :
    (s.syncTailView).program = s.program := rfl
@[simp] theorem State.syncTailView_data :
    (s.syncTailView).data = s.data := rfl
@[simp] theorem State.syncTailView_pgm :
    (s.syncTailView).pgm = s.pgm := rfl
@[simp] theorem State.syncTailView_rx :
    (s.syncTailView).rx =
      { s.rx with tailView := s.rx.tail, tailSync := List.replicate s.cfg.syncStages s.rx.tailGray } := rfl
@[simp] theorem State.syncTailView_tx :
    (s.syncTailView).tx = s.tx := rfl
@[simp] theorem State.syncTailView_ctrl :
    (s.syncTailView).ctrl = s.ctrl := rfl
@[simp] theorem State.syncTailView_ubrr :
    (s.syncTailView).ubrr = s.ubrr := rfl
@[simp] theorem State.syncTailView_res :
    (s.syncTailView).res = s.res := rfl
@[simp] theorem State.syncTailView_resWritten :
    (s.syncTailView).resWritten = s.resWritten := rfl
@[simp] theorem State.syncTailView_fg :
    (s.syncTailView).fg = s.fg := rfl
@[simp] theorem State.syncTailView_line :
    (s.syncTailView).line = s.line := rfl
@[simp] theorem State.syncTailView_hist :
    (s.syncTailView).hist = s.hist := rfl
@[simp] theorem State.syncTailView_mark :
    (s.syncTailView).mark = s.mark := rfl
@[simp] theorem State.syncTailView_sched :
    (s.syncTailView).sched = s.sched := rfl
@[simp] theorem State.syncTailView_turns :
    (s.syncTailView).turns = s.turns := rfl

@[simp] theorem State.setTxie_cfg (v : Bool) :
    (s.setTxie v).cfg = s.cfg := rfl
@[simp] theorem State.setTxie_program (v : Bool) :
    (s.setTxie v).program = s.program := rfl
@[simp] theorem State.setTxie_data (v : Bool) :
    (s.setTxie v).data = s.data := rfl
@[simp] theorem State.setTxie_pgm (v : Bool) :
    (s.setTxie v).pgm = s.pgm := rfl
@[simp] theorem State.setTxie_rx (v : Bool) :
    (s.setTxie v).rx = s.rx := rfl
@[simp] theorem State.setTxie_tx (v : Bool) :
    (s.setTxie v).tx = s.tx := rfl
@[simp] theorem State.setTxie_ctrl (v : Bool) :
    (s.setTxie v).ctrl = { s.ctrl with txie := v } := rfl
@[simp] theorem State.setTxie_ubrr (v : Bool) :
    (s.setTxie v).ubrr = s.ubrr := rfl
@[simp] theorem State.setTxie_res (v : Bool) :
    (s.setTxie v).res = s.res := rfl
@[simp] theorem State.setTxie_resWritten (v : Bool) :
    (s.setTxie v).resWritten = s.resWritten := rfl
@[simp] theorem State.setTxie_fg (v : Bool) :
    (s.setTxie v).fg = s.fg := rfl
@[simp] theorem State.setTxie_line (v : Bool) :
    (s.setTxie v).line = s.line := rfl
@[simp] theorem State.setTxie_hist (v : Bool) :
    (s.setTxie v).hist = s.hist := rfl
@[simp] theorem State.setTxie_mark (v : Bool) :
    (s.setTxie v).mark = s.mark := rfl
@[simp] theorem State.setTxie_sched (v : Bool) :
    (s.setTxie v).sched = s.sched := rfl
@[simp] theorem State.setTxie_turns (v : Bool) :
    (s.setTxie v).turns = s.turns := rfl

@[simp] theorem State.enableUart_cfg :
    (s.enableUart).cfg = s.cfg := rfl
@[simp] theorem State.enableUart_program :
    (s.enableUart).program = s.program := rfl
@[simp] theorem State.enableUart_data :
    (s.enableUart).data = s.data := rfl
@[simp] theorem State.enableUart_pgm :
    (s.enableUart).pgm = s.pgm := rfl
@[simp] theorem State.enableUart_rx :
    (s.enableUart).rx = s.rx := rfl
@[simp] theorem State.enableUart_tx :
    (s.enableUart).tx = s.tx := rfl
@[simp] theorem State.enableUart_ctrl :
    (s.enableUart).ctrl = { s.ctrl with rxen := true, txen := true, rxcie := true } := rfl
@[simp] theorem State.enableUart_ubrr :
    (s.enableUart).ubrr = s.ubrr := rfl
@[simp] theorem State.enableUart_res :
    (s.enableUart).res = s.res := rfl
@[simp] theorem State.enableUart_resWritten :
    (s.enableUart).resWritten = s.resWritten := rfl
@[simp] theorem State.enableUart_fg :
    (s.enableUart).fg = s.fg := rfl
@[simp] theorem State.enableUart_line :
    (s.enableUart).line = s.line := rfl
@[simp] theorem State.enableUart_hist :
    (s.enableUart).hist = s.hist := rfl
@[simp] theorem State.enableUart_mark :
    (s.enableUart).mark = s.mark := rfl
@[simp] theorem State.enableUart_sched :
    (s.enableUart).sched = s.sched := rfl
@[simp] theorem State.enableUart_turns :
    (s.enableUart).turns = s.turns := rfl

/-! `afterTurn` changes only the schedule. -/

@[simp] theorem State.afterTurn_cfg : s.afterTurn.cfg = s.cfg := by
  unfold State.afterTurn; split <;> rfl
@[simp] theorem State.afterTurn_program : s.afterTurn.program = s.program := by
  unfold State.afterTurn; split <;> rfl
@[simp] theorem State.afterTurn_data : s.afterTurn.data = s.data := by
  unfold State.afterTurn; split <;> rfl
@[simp] theorem State.afterTurn_pgm : s.afterTurn.pgm = s.pgm := by
  unfold State.afterTurn; split <;> rfl
@[simp] theorem State.afterTurn_rx : s.afterTurn.rx = s.rx := by
  unfold State.afterTurn; split <;> rfl
@[simp] theorem State.afterTurn_tx : s.afterTurn.tx = s.tx := by
  unfold State.afterTurn; split <;> rfl
@[simp] theorem State.afterTurn_ctrl : s.afterTurn.ctrl = s.ctrl := by
  unfold State.afterTurn; split <;> rfl
@[simp] theorem State.afterTurn_ubrr : s.afterTurn.ubrr = s.ubrr := by
  unfold State.afterTurn; split <;> rfl
@[simp] theorem State.afterTurn_res : s.afterTurn.res = s.res := by
  unfold State.afterTurn; split <;> rfl
@[simp] theorem State.afterTurn_resWritten : s.afterTurn.resWritten = s.resWritten := by
  unfold State.afterTurn; split <;> rfl
@[simp] theorem State.afterTurn_fg : s.afterTurn.fg = s.fg := by
  unfold State.afterTurn; split <;> rfl
@[simp] theorem State.afterTurn_line : s.afterTurn.line = s.line := by
  unfold State.afterTurn; split <;> rfl
@[simp] theorem State.afterTurn_hist : s.afterTurn.hist = s.hist := by
  unfold State.afterTurn; split <;> rfl
@[simp] theorem State.afterTurn_mark : s.afterTurn.mark = s.mark := by
  unfold State.afterTurn; split <;> rfl

theorem State.afterTurn_eq : s.afterTurn = { s with sched := s.afterTurn.sched, turns := s.afterTurn.turns } := by
  unfold State.afterTurn; split <;> rfl

end Sys2Proof.Machine
end

