-- ==== Sys2Proof/Laws/Fifo.lean ====
section
/-! SUPPORT. What the shared FIFO operations do: ENQ, one byte sent by WRITE or PRINT_BYTE, and the two handlers. -/

namespace Sys2Proof.Machine

variable {s t : State} {b : Byte}

theorem State.txFull_iff : s.txFull = true ↔ ringNext s.cfg.cTx s.tx.head = s.tx.tail := by
  simp [State.txFull]

/-- ENQ in one equation: it holds when the FIFO is full, else it stores, and sets TXIE if the FIFO was empty (R181). -/
theorem State.enq_eq :
    s.enq b =
      if ringNext s.cfg.cTx s.tx.head = s.tx.tail then none
      else some { s.storeTx b with ctrl := { s.ctrl with txie := s.ctrl.txie || decide (s.tx.head = s.tx.tail) } } := by
  unfold State.enq
  by_cases hf : s.txFull = true
  · rw [if_pos hf, if_pos (State.txFull_iff.mp hf)]
  · rw [if_neg hf, if_neg (fun h => hf (State.txFull_iff.mpr h))]
    split
    · next he => simp [he, State.setTxie]
    · next he => simp [he, State.storeTx]

theorem State.enq_eq_some_iff :
    s.enq b = some t ↔
      ringNext s.cfg.cTx s.tx.head ≠ s.tx.tail ∧
      t = { s.storeTx b with ctrl := { s.ctrl with txie := s.ctrl.txie || decide (s.tx.head = s.tx.tail) } } := by
  rw [State.enq_eq]
  split
  · next h => simp [h]
  · next h => exact ⟨fun e => ⟨h, (Option.some.inj e).symm⟩, fun e => by rw [e.2]⟩

/-- ENQ holds exactly when the FIFO is full (R181). -/
theorem State.enq_eq_none_iff : s.enq b = none ↔ ringNext s.cfg.cTx s.tx.head = s.tx.tail := by
  rw [State.enq_eq]
  split <;> simp [*]

theorem State.sendByte_of_full (h : ringNext s.cfg.cTx s.tx.head = s.tx.tail) : s.sendByte b = s := by
  unfold State.sendByte
  rw [State.enq_eq_none_iff.mpr h]

theorem State.sendByte_of_room (h : ringNext s.cfg.cTx s.tx.head ≠ s.tx.tail) :
    s.sendByte b =
      State.advance
        { s.storeTx b with ctrl := { s.ctrl with txie := s.ctrl.txie || decide (s.tx.head = s.tx.tail) } } := by
  unfold State.sendByte
  rw [State.enq_eq_some_iff.mpr ⟨h, rfl⟩]

end Sys2Proof.Machine
end

