-- ==== Sys2Proof/Laws/Moves.lean ====
section
/-! SUPPORT. Everything a step can do, said once: if `step` answers a next state, the state was an unmarked instance of
the block and the turn made one of the moves listed here. Every invariant is a case analysis over `Moves`. -/

namespace Sys2Proof.Machine

/-- The moves of one turn, with whose turn it was and what each found in the state it started from. -/
inductive Moves (s : State) : Turn → State → Prop
  /-- Nothing happens: an agent without a step, or a hold. -/
  | stay (u : Turn) : Moves s u s
  /-- FG issues a word that spells no command. -/
  | refuse (r : RefuseReason) (w : CmdWord) (hm : s.fg.mode = .idle) (hw : s.commandWord = some w)
      (hd : decodeCommand w = .error r) : Moves s (.agent .fg) (s.refuse r w)
  /-- A command's issue step or TX_DRAIN faults, before anything is written. -/
  | fault (r : Fault) (i : Instr) (hi : i.issuer = .fg ∨ i = .txDrain)
      (hr : r = .unwrittenSlot →
        Memory.read s.rx.mem s.rx.tail = none ∧ s.rx.headView ≠ s.rx.tail ∧ i = .read ∨
        Memory.read s.tx.mem s.tx.tail = none ∧ s.tx.head ≠ s.tx.tail ∧ i = .txDrain) :
      Moves s (.agent i.issuer) (s.raiseFault r (encode i))
  /-- AVAILABLE, or READ of nothing. -/
  | result (v : BitVec 16) (hm : s.fg.mode = .idle) (hp : s.fg.pc < s.program.length) :
      Moves s (.agent .fg) (s.writeRes v).advance
  /-- READ of a byte. -/
  | readByte (b : Byte) (hm : s.fg.mode = .idle) (hp : s.fg.pc < s.program.length) (hv : s.rx.headView ≠ s.rx.tail)
      (hb : Memory.read s.rx.mem s.rx.tail = some b) :
      Moves s (.agent .fg) ((s.writeRes (byteResult b)).setRxTail (ringNext s.cfg.cRx s.rx.tail)).advance
  /-- FLUSH. -/
  | flush (hm : s.fg.mode = .idle) (hp : s.fg.pc < s.program.length) :
      Moves s (.agent .fg) (s.setRxTail s.rx.headView).advance
  /-- WRITE or PRINT_BYTE stores its byte. -/
  | send (b : Byte) (t : State) (hm : s.fg.mode = .idle) (hp : s.fg.pc < s.program.length) (ht : s.enq b = some t) :
      Moves s (.agent .fg) t.advance
  /-- BEGIN. -/
  | uart (d : BitVec 16) (hm : s.fg.mode = .idle) (hp : s.fg.pc < s.program.length) :
      Moves s (.agent .fg) (s.writeUbrr d).enableUart.advance
  /-- PRINT_STRING or PRINT_PGM_STRING is issued. -/
  | startString (sp : Space) (a : Addr16) (hm : s.fg.mode = .idle) (hp : s.fg.pc < s.program.length) :
      Moves s (.agent .fg) (s.startString sp a)
  /-- A byte-list command is issued; its list is not empty. -/
  | startBytes (bs : List Byte) (hbs : bs ≠ []) (hm : s.fg.mode = .idle) (hp : s.fg.pc < s.program.length) :
      Moves s (.agent .fg) (s.startBytes bs)
  /-- STR finds the terminator. -/
  | strEnd (sp : Space) (a : Addr16) (hm : s.fg.mode = .busy) (hc : s.fg.cursor = some (sp, a))
      (h0 : s.memRead sp a = 0#8) : Moves s (.agent .fg) s.complete
  /-- STR stores a byte. -/
  | strSend (sp : Space) (a : Addr16) (t : State) (hm : s.fg.mode = .busy) (hc : s.fg.cursor = some (sp, a))
      (h0 : s.memRead sp a ≠ 0#8) (ht : s.enq (s.memRead sp a) = some t) :
      Moves s (.agent .fg) (t.setCursor sp (nextAddr a))
  /-- ENQ of the last pending byte. -/
  | pendLast (b : Byte) (t : State) (hm : s.fg.mode = .busy) (hc : s.fg.cursor = none) (hq : s.fg.pending = [b])
      (ht : s.enq b = some t) : Moves s (.agent .fg) t.complete
  /-- ENQ of a pending byte that is not the last. -/
  | pendSend (b : Byte) (rest : List Byte) (t : State) (hr : rest ≠ []) (hm : s.fg.mode = .busy)
      (hc : s.fg.cursor = none) (hq : s.fg.pending = b :: rest) (ht : s.enq b = some t) :
      Moves s (.agent .fg) (t.setPending rest)
  /-- RX_PUSH drops a byte. -/
  | rxDrop (b : Byte) (he : s.rxEnabled = true) (hb : s.line.inp.head? = some b)
      (hf : ringNext s.cfg.cRx s.rx.head = s.rx.tailView) : Moves s (.agent .rxp) (s.takeOffered.record (.rxDropped b))
  /-- RX_PUSH accepts a byte. -/
  | rxStore (b : Byte) (he : s.rxEnabled = true) (hb : s.line.inp.head? = some b)
      (hf : ringNext s.cfg.cRx s.rx.head ≠ s.rx.tailView) :
      Moves s (.agent .rxp) ((s.takeOffered.storeRx b).record (.rxAccepted b))
  /-- TX_DRAIN finds nothing to send. -/
  | txDisarm (he : s.txEnabled = true) (h0 : s.tx.head = s.tx.tail) : Moves s (.agent .txc) (s.setTxie false)
  /-- TX_DRAIN sends a byte. -/
  | txSend (b : Byte) (he : s.txEnabled = true) (h0 : s.tx.head ≠ s.tx.tail)
      (hb : Memory.read s.tx.mem s.tx.tail = some b) :
      Moves s (.agent .txc) ((s.advanceTxTail.emit b).record (.txSent b))
  /-- SYNC_HEAD. -/
  | syncHead : Moves s (.agent .sh) s.syncHeadView
  /-- SYNC_TAIL. -/
  | syncTail : Moves s (.agent .st) s.syncTailView
  /-- The host moves. -/
  | host (m : HostMove) : Moves s (.host m) (s.hostMove m)

variable {s t : State}

/-- A move of the host changes only the line, and nothing already sent (R300). -/
theorem State.hostMove_line (m : HostMove) :
    ∃ l : Line, l.out = s.line.out ∧ s.hostMove m = { s with line := l } := by
  cases m with
  | offer b =>
    simp only [State.hostMove]
    split
    · exact ⟨{ s.line with inp := s.line.inp ++ [b] }, rfl, rfl⟩
    · exact ⟨s.line, rfl, rfl⟩
  | ready => exact ⟨{ s.line with ready := true }, rfl, rfl⟩
  | busy => exact ⟨{ s.line with ready := false }, rfl, rfl⟩

theorem pushDigits_length_ge (fuel m base : Nat) (st : List Nat) :
    st.length ≤ (pushDigits fuel m base st).length := by
  induction fuel generalizing m st with
  | zero => exact Nat.le_refl _
  | succ n ih =>
    unfold pushDigits
    split
    · exact Nat.le_refl _
    · exact Nat.le_trans (by simp) (ih (m / base) ((m % base) :: st))

theorem udigits_ne_nil (m base : Nat) : udigits m base ≠ [] := by
  unfold udigits
  split
  · simp
  · next h =>
    have h1 : 1 ≤ (pushDigits longW m base []).length := by
      unfold longW pushDigits
      rw [if_neg h]
      exact Nat.le_trans (by simp) (pushDigits_length_ge 31 (m / base) base [m % base])
    intro h0
    rw [h0] at h1
    simp at h1

theorem fmtUint_ne_nil (m base : Nat) : fmtUint m base ≠ [] := by
  simp [fmtUint, udigits_ne_nil]

theorem fmtInt_ne_nil (n : Int) : fmtInt n ≠ [] := by
  unfold fmtInt
  split
  · simp
  · exact fmtUint_ne_nil _ _

theorem fmtFloat_ne_nil {pad : FracPad} {x : BitVec 32} {bs : List Byte} (h : fmtFloat pad x = .ok bs) : bs ≠ [] := by
  unfold fmtFloat at h
  split at h
  · split at h
    · cases h
    · cases h
      simp
  · cases h

theorem fmtFloat_error {pad : FracPad} {x : BitVec 32} {r : Fault} (h : fmtFloat pad x = .error r) :
    r ≠ .unwrittenSlot := by
  unfold fmtFloat at h
  split at h
  · split at h <;> cases h
    simp
  · cases h
    simp

theorem moves_sendByte (b : Byte) (hm : s.fg.mode = .idle) (hp : s.fg.pc < s.program.length) :
    Moves s (.agent .fg) (s.sendByte b) := by
  unfold State.sendByte
  split
  · exact .stay _
  · next t ht => exact .send b t hm hp ht

/-- What FG's issue of a decoded command can do. -/
theorem moves_exec {i : Instr} (hm : s.fg.mode = .idle) (hp : s.fg.pc < s.program.length) (hi : i.issuer = .fg)
    (h : exec i s = .next t) : Moves s (.agent .fg) t := by
  cases i with
  | available => cases h; exact .result _ hm hp
  | read =>
    simp only [exec, execRead] at h
    split at h
    · cases h; exact .result _ hm hp
    · next hv =>
      split at h
      · next hb => cases h; exact .fault _ .read (.inl rfl) fun _ => .inl ⟨hb, hv, rfl⟩
      · next b hb => cases h; exact .readByte b hm hp hv hb
  | flush => cases h; exact .flush hm hp
  | write b => cases h; exact moves_sendByte b hm hp
  | beginUart baud =>
    simp only [exec, execBegin] at h
    split at h
    · cases h; exact .fault _ (.beginUart baud) (.inl rfl) (by simp)
    · split at h
      · cases h; exact .fault _ (.beginUart baud) (.inl rfl) (by simp)
      · cases h; exact .uart _ hm hp
  | printByte b => cases h; exact moves_sendByte b hm hp
  | printString a => cases h; exact .startString _ _ hm hp
  | printPgmString a => cases h; exact .startString _ _ hm hp
  | printIntBase m base =>
    simp only [exec, execPrintIntBase] at h
    split at h
    · cases h; exact .fault _ (.printIntBase m base) (.inl rfl) (by simp)
    · cases h; exact .startBytes _ (fmtUint_ne_nil _ _) hm hp
  | printInt n => cases h; exact .startBytes _ (fmtInt_ne_nil _) hm hp
  | printFloat x =>
    simp only [exec, execPrintFloat] at h
    split at h
    · next r hr => cases h; exact .fault _ (.printFloat x) (.inl rfl) fun e => absurd e (fmtFloat_error hr)
    · next bs hbs => cases h; exact .startBytes _ (fmtFloat_ne_nil hbs) hm hp
  | rxPush b => cases hi
  | txDrain => cases hi
  | syncHead => cases hi
  | syncTail => cases hi

theorem moves_rxPush {b : Byte} (h : exec (.rxPush b) s = .next t) : Moves s (.agent .rxp) t := by
  simp only [exec, execRxPush] at h
  split at h
  · next he =>
    simp only [Bool.and_eq_true, beq_iff_eq] at he
    split at h
    · next hf => cases h; exact .rxDrop b he.1 he.2 hf
    · next hf => cases h; exact .rxStore b he.1 he.2 hf
  · cases h; exact .stay _

theorem moves_txDrain (h : exec .txDrain s = .next t) : Moves s (.agent .txc) t := by
  simp only [exec, execTxDrain] at h
  split at h
  · next he =>
    split at h
    · next h0 => cases h; exact .txDisarm he h0
    · next h0 =>
      split at h
      · next hb => cases h; exact .fault _ .txDrain (.inr rfl) fun _ => .inr ⟨hb, h0, rfl⟩
      · next b hb => cases h; exact .txSend b he h0 hb
  · cases h; exact .stay _

/-- The command port's decoder answers commands of FG only. -/
theorem decodeCommand_issuer {w : CmdWord} {i : Instr} (h : decodeCommand w = .ok i) : i.issuer = .fg := by
  unfold decodeCommand at h
  split at h
  · cases h
  · split at h
    · cases h
    · next r hr =>
      split at h
      · cases h
        have hmem := List.mem_of_find?_eq_some hr
        simp only [commandRows, List.mem_cons, List.not_mem_nil, or_false] at hmem
        rcases hmem with rfl | rfl | rfl | rfl | rfl | rfl | rfl | rfl | rfl | rfl | rfl <;> rfl
      · cases h

theorem commandWord_lt {w : CmdWord} (h : s.commandWord = some w) : s.fg.pc < s.program.length := by
  unfold State.commandWord at h
  exact (List.getElem?_eq_some_iff.mp h).1

theorem moves_fgIssue (hm : s.fg.mode = .idle) (h : fgIssue s = .next t) : Moves s (.agent .fg) t := by
  unfold fgIssue at h
  split at h
  · cases h; exact .stay _
  · next w hw =>
    split at h
    · next r hd => cases h; exact .refuse r w hm hw hd
    · next i hd => exact moves_exec hm (commandWord_lt hw) (decodeCommand_issuer hd) h

theorem moves_microStep (hm : s.fg.mode = .busy) : Moves s (.agent .fg) s.microStep := by
  unfold State.microStep
  split
  · next sp a hc =>
    simp only [State.strStep]
    split
    · next h0 => exact .strEnd sp a hm hc h0
    · next h0 =>
      split
      · exact .stay _
      · next t ht => exact .strSend sp a t hm hc h0 ht
  · next hc =>
    unfold State.pendingStep
    split
    · exact .stay _
    · next b rest hq =>
      split
      · exact .stay _
      · next t ht =>
        split
        · next hr => subst hr; exact .pendLast b t hm hc hq ht
        · next hr => exact .pendSend b rest t hr hm hc hq ht

theorem moves_agentStep {a : Agent} (h : agentStep a s = .next t) : Moves s (.agent a) t := by
  cases a with
  | fg =>
    simp only [agentStep] at h
    split at h
    · next hm => exact moves_fgIssue hm h
    · next hm => cases h; exact moves_microStep hm
  | rxp =>
    simp only [agentStep] at h
    split at h
    · cases h; exact .stay _
    · exact moves_rxPush h
  | txc => exact moves_txDrain h
  | sh => cases h; exact .syncHead
  | st => cases h; exact .syncTail

theorem moves_takeTurn {u : Turn} (h : takeTurn u s = .next t) : Moves s u t := by
  cases u with
  | host m => cases h; exact .host m
  | agent a =>
    simp only [takeTurn] at h
    split at h
    · exact moves_agentStep h
    · cases h; exact .stay _

/-- A step that answers a next state started from an unmarked instance of the block, and its turn made one move. -/
theorem step_moves (h : step s = .next t) :
    s.cfg.valid = true ∧ s.mark.fault = none ∧ s.mark.refused = none ∧
      takeTurn s.nextTurn s.afterTurn = .next t ∧ Moves s.afterTurn s.nextTurn t := by
  unfold step stepOf at h
  split at h
  · next hv =>
    split at h
    · cases h
    · cases h
    · next hf hr => exact ⟨hv, hf, hr, h, moves_takeTurn h⟩
  · cases h

/-- From an unmarked instance of the block a step takes the next turn. -/
theorem step_eq_takeTurn (hv : s.cfg.valid = true) (hf : s.mark.fault = none) (hr : s.mark.refused = none) :
    step s = takeTurn s.nextTurn s.afterTurn := by
  unfold step stepOf
  rw [if_pos hv, hf, hr]

end Sys2Proof.Machine
end

