-- ==== Sys2Proof/Laws/Queue.lean ====
section
/-! SUPPORT. The queues the FIFOs stand for: what storing at the head and advancing the tail do to the slots between. -/

namespace Sys2Proof.Machine

variable {m : Memory} {c a n k : Nat} {b : Byte} {s t : State}

@[simp] theorem ringSlots_length : (ringSlots m c a n).length = n := by simp [ringSlots]

@[simp] theorem ringSlots_zero : ringSlots m c a 0 = [] := rfl

/-- The slots from the front: the first, then those from the next slot on. -/
theorem ringSlots_succ (ha : a < c) :
    ringSlots m c a (n + 1) = Memory.read m a :: ringSlots m c (ringNext c a) n := by
  simp only [ringSlots, List.range_succ_eq_map, List.map_cons, List.map_map, Nat.add_zero, Nat.mod_eq_of_lt ha]
  congr 1
  refine List.map_congr_left fun j _ => ?_
  show Memory.read m ((a + (j + 1)) % c) = Memory.read m ((ringNext c a + j) % c)
  rw [ringNext_add]

/-- A write to a slot outside the first `n` changes none of them. -/
theorem ringSlots_write_of_ne {x : Nat} (h : ∀ j < n, (a + j) % c ≠ x) :
    ringSlots (Memory.write m x b) c a n = ringSlots m c a n := by
  refine List.map_congr_left fun j hj => ?_
  exact Memory.read_write_other (h j (List.mem_range.mp hj))

/-- Storing a byte in the slot after the first `n` appends it. -/
theorem ringSlots_write_end (ha : a < c) (hn : n < c) :
    ringSlots (Memory.write m ((a + n) % c) b) c a (n + 1) = ringSlots m c a n ++ [some b] := by
  have h1 : ringSlots (Memory.write m ((a + n) % c) b) c a n = ringSlots m c a n :=
    ringSlots_write_of_ne fun j hj e => by
      have := ring_offset_inj ha (by omega) hn e
      omega
  rw [← h1]
  simp [ringSlots, List.range_succ]

/-- Skipping `k` of the slots leaves those from `k` further on. -/
theorem ringSlots_drop : (ringSlots m c a n).drop k = ringSlots m c ((a + k) % c) (n - k) := by
  refine List.ext_getElem (by simp) fun j h1 h2 => ?_
  simp only [ringSlots, List.getElem_drop, List.getElem_map, List.getElem_range]
  rw [Nat.mod_add_mod]
  congr 2
  omega

/-- ENQ appends its byte to the transmit queue (R181, R188). -/
theorem State.txQueue_enq (hh : s.tx.head < s.cfg.cTx) (ht : s.tx.tail < s.cfg.cTx) (h : s.enq b = some t) :
    t.txQueue = s.txQueue ++ [some b] := by
  obtain ⟨hf, rfl⟩ := State.enq_eq_some_iff.mp h
  have h1 := ringDist_next_right ht hh hf
  have h2 := ringDist_lt (c := s.cfg.cTx) (a := s.tx.tail) (b := s.tx.head) (by omega)
  have h3 := ringSlots_write_end (m := s.tx.mem) (b := b) ht h2
  rw [ringDist_reaches ht hh] at h3
  simp [State.txQueue, h1, h3]

/-- Sending takes the oldest byte off the transmit queue (R184, R188). -/
theorem State.txQueue_advance (hh : s.tx.head < s.cfg.cTx) (ht : s.tx.tail < s.cfg.cTx) (h : s.tx.head ≠ s.tx.tail) :
    s.txQueue = Memory.read s.tx.mem s.tx.tail :: s.advanceTxTail.txQueue := by
  have h1 := ringDist_next_left ht hh (fun e => h e.symm)
  simp [State.txQueue, ← h1, ringSlots_succ ht]

/-- An accepted byte joins the unread bytes at the end (R81, R82). -/
theorem State.rxQueue_store (hh : s.rx.head < s.cfg.cRx) (ht : s.rx.tail < s.cfg.cRx)
    (h : ringNext s.cfg.cRx s.rx.head ≠ s.rx.tail) : (s.storeRx b).rxQueue = s.rxQueue ++ [some b] := by
  have h1 := ringDist_next_right ht hh h
  have h2 := ringDist_lt (c := s.cfg.cRx) (a := s.rx.tail) (b := s.rx.head) (by omega)
  have h3 := ringSlots_write_end (m := s.rx.mem) (b := b) ht h2
  rw [ringDist_reaches ht hh] at h3
  simp [State.rxQueue, h1, h3]

/-- Moving the tail forward by `k`, not past the head, drops the `k` oldest unread bytes. -/
theorem State.rxQueue_setRxTail (hh : s.rx.head < s.cfg.cRx) (ht : s.rx.tail < s.cfg.cRx)
    (hk : k ≤ ringDist s.cfg.cRx s.rx.tail s.rx.head) :
    (s.setRxTail ((s.rx.tail + k) % s.cfg.cRx)).rxQueue = s.rxQueue.drop k := by
  have hl := ringDist_lt (c := s.cfg.cRx) (a := s.rx.tail) (b := s.rx.head) (by omega)
  have hd : ringDist s.cfg.cRx ((s.rx.tail + k) % s.cfg.cRx) s.rx.head =
      ringDist s.cfg.cRx s.rx.tail s.rx.head - k := by
    have hx : (s.rx.tail + k) % s.cfg.cRx < s.cfg.cRx := Nat.mod_lt _ (by omega)
    have hm : (s.rx.tail + k) % s.cfg.cRx =
        if s.rx.tail + k < s.cfg.cRx then s.rx.tail + k else s.rx.tail + k - s.cfg.cRx := by
      split
      · exact Nat.mod_eq_of_lt ‹_›
      · rw [Nat.mod_eq_sub_mod (by omega)]
        exact Nat.mod_eq_of_lt (by omega)
    rw [ringDist_eq hx hh]
    rw [ringDist_eq ht hh] at hk hl ⊢
    generalize (s.rx.tail + k) % s.cfg.cRx = z at *
    split at hm <;> split at hk <;> split <;> omega
  simp [State.rxQueue, ringSlots_drop, hd]

end Sys2Proof.Machine
end

