-- ==== Sys2Proof/Laws/Invariant.lean ====
section
/-! SUPPORT. What the invariants give, once: taking a turn keeps them, the receive distances add up, the memories of reset
and of every storing operation are canonical, and the histories' bytes of an appended event. -/

namespace Sys2Proof.Machine

variable {s : State}

/-- Taking a turn changes nothing an invariant reads. -/
theorem State.afterTurn_inv (h : s.Inv) : s.afterTurn.Inv := by
  obtain ⟨h1, h2, h3, h4, h5, h6, h7, h8, h9, h10, h11, h12, h13, h14⟩ := h
  rw [State.afterTurn_eq s]
  exact ⟨h1, h2, h3, h4, h5, h6, h7, h8, h9, h10, h11, h12, h13, h14⟩

/-- The true count is the visible count and the bytes not yet visible (R77, R80). -/
theorem State.trueCount_eq (hi : s.IndicesInRange) (h : s.RxSpan) :
    ringDist s.cfg.cRx s.rx.tail s.rx.head =
      ringDist s.cfg.cRx s.rx.tail s.rx.headView + ringDist s.cfg.cRx s.rx.headView s.rx.head := by
  obtain ⟨h1, h2, h3, _, _, _⟩ := hi
  unfold State.RxSpan at h
  exact ringDist_add h2 h3 h1 (by omega)

/-- Where RX_PUSH does not drop, the head does not meet the tail: the view is never ahead of it (R82). -/
theorem State.next_ne_tail (hi : s.IndicesInRange) (h : s.RxSpan)
    (hf : ringNext s.cfg.cRx s.rx.head ≠ s.rx.tailView) : ringNext s.cfg.cRx s.rx.head ≠ s.rx.tail := by
  have hc := State.trueCount_eq hi h
  obtain ⟨h1, h2, _, h4, _, _⟩ := hi
  unfold State.RxSpan at h
  intro e
  have hd := (ringNext_eq_iff h2 h1).mp e
  have hv : s.rx.tailView = s.rx.tail := (ringDist_eq_zero h4 h2).mp (by omega)
  exact hf (by rw [hv]; exact e)

/-- A visible byte's slot is written (R76, R81). -/
theorem State.visible_written (hi : s.IndicesInRange) (h : s.RxSpan) (hw : s.RxWritten)
    (hv : s.rx.headView ≠ s.rx.tail) : ∃ b, Memory.read s.rx.mem s.rx.tail = some b := by
  have hc := State.trueCount_eq hi h
  have hne : ringDist s.cfg.cRx s.rx.tail s.rx.headView ≠ 0 :=
    fun z => hv ((ringDist_eq_zero hi.2.1 hi.2.2.1).mp z).symm
  have hr := hw 0 (by omega)
  rw [Nat.add_zero, Nat.mod_eq_of_lt hi.2.1] at hr
  exact Option.isSome_iff_exists.mp hr

/-- An unsent byte's slot is written (R76, R188). -/
theorem State.unsent_written (hi : s.IndicesInRange) (hw : s.TxWritten) (h : s.tx.head ≠ s.tx.tail) :
    ∃ b, Memory.read s.tx.mem s.tx.tail = some b := by
  have hne : ringDist s.cfg.cTx s.tx.tail s.tx.head ≠ 0 :=
    fun z => h ((ringDist_eq_zero hi.2.2.2.2.2 hi.2.2.2.2.1).mp z).symm
  have hr := hw 0 (by omega)
  rw [Nat.add_zero, Nat.mod_eq_of_lt hi.2.2.2.2.2] at hr
  exact Option.isSome_iff_exists.mp hr

/-! ### Canonical memories -/

/-- The memories of reset list nothing, which is canonical. -/
theorem State.reset_memories : State.reset.MemoriesWf := ⟨rfl, rfl, rfl, rfl⟩

theorem State.storeRx_memories {b : Byte} (hh : s.rx.head < s.cfg.cRx) (h : s.MemoriesWf) :
    (s.storeRx b).MemoriesWf := ⟨Memory.wf_write h.1 hh, h.2⟩

theorem State.storeTx_memories {b : Byte} (hh : s.tx.head < s.cfg.cTx) (h : s.MemoriesWf) :
    (s.storeTx b).MemoriesWf := ⟨h.1, Memory.wf_write h.2.1 hh, h.2.2⟩

theorem State.placeByte_memories {sp : Space} {a : Addr16} {b : Byte} (h : s.MemoriesWf) :
    (s.placeByte sp a b).MemoriesWf := by
  cases sp with
  | data => exact ⟨h.1, h.2.1, Memory.imageWf_imageWrite h.2.2.1, h.2.2.2⟩
  | pgm => exact ⟨h.1, h.2.1, h.2.2.1, Memory.imageWf_imageWrite h.2.2.2⟩

/-! ### Histories -/

theorem acceptedBytes_append (l m : List Event) : acceptedBytes (l ++ m) = acceptedBytes l ++ acceptedBytes m := by
  induction l with
  | nil => rfl
  | cons e l ih => cases e <;> simp [acceptedBytes, ih]

theorem sentBytes_append (l m : List Event) : sentBytes (l ++ m) = sentBytes l ++ sentBytes m := by
  induction l with
  | nil => rfl
  | cons e l ih => cases e <;> simp [sentBytes, ih]

end Sys2Proof.Machine
end

