-- ==== Sys2Proof/Laws/PerInstr.lean ====
section
/-! SUPPORT. Statements made once per instruction. `Row`: the instruction's word selects the row of the opcode map with
the instruction's opcode and operand form (30_encoding.md R103). -/

namespace Sys2Proof.Laws

/-- The mask of the instruction's form keeps exactly its opcode of its word: `(w AND mask) = match` (R103). -/
def Row.Statement (i : Instr) : Prop := encode i &&& i.form.mask = i.code ++ 0#56

/-- What `Statement` asks, operand by operand: ARG1 and ARG0 of the instruction lie outside the mask of its form. -/
theorem Row.of_args {i : Instr} (h1 : i.arg1 &&& i.form.maskArg1 = 0#8) (h0 : i.arg0 &&& i.form.maskArg0 = 0#32) :
    Row.Statement i :=
  (fields_select_iff _ _ _ _ _ _ _ _ (Form.mask_fields i.form)).mpr ⟨rfl, h1, rfl, h0⟩

theorem Row.above_byte (b : Byte) : b.setWidth 32 &&& 0xFFFFFF00#32 = 0#32 := by
  rw [and_above_u8, BitVec.toNat_setWidth]
  omega

theorem Row.above_address (a : Addr16) : a.setWidth 32 &&& 0xFFFF0000#32 = 0#32 := by
  rw [and_above_addr16, BitVec.toNat_setWidth]
  omega

theorem Row.available : Row.Statement .available := Row.of_args rfl rfl
theorem Row.read : Row.Statement .read := Row.of_args rfl rfl
theorem Row.flush : Row.Statement .flush := Row.of_args rfl rfl
theorem Row.write (b : Byte) : Row.Statement (.write b) := Row.of_args BitVec.zero_and (Row.above_byte b)
theorem Row.beginUart (baud : BitVec 32) : Row.Statement (.beginUart baud) := Row.of_args BitVec.zero_and BitVec.and_zero
theorem Row.printByte (b : Byte) : Row.Statement (.printByte b) := Row.of_args BitVec.zero_and (Row.above_byte b)
theorem Row.printString (a : Addr16) : Row.Statement (.printString a) := Row.of_args BitVec.zero_and (Row.above_address a)
theorem Row.printPgmString (a : Addr16) : Row.Statement (.printPgmString a) := Row.of_args BitVec.zero_and (Row.above_address a)
theorem Row.printIntBase (m : BitVec 32) (base : BitVec 8) : Row.Statement (.printIntBase m base) :=
  Row.of_args BitVec.and_zero BitVec.and_zero
theorem Row.printInt (n : BitVec 32) : Row.Statement (.printInt n) := Row.of_args BitVec.zero_and BitVec.and_zero
theorem Row.printFloat (x : BitVec 32) : Row.Statement (.printFloat x) := Row.of_args BitVec.zero_and BitVec.and_zero
theorem Row.rxPush (b : Byte) : Row.Statement (.rxPush b) := Row.of_args BitVec.zero_and (Row.above_byte b)
theorem Row.txDrain : Row.Statement .txDrain := Row.of_args rfl rfl
theorem Row.syncHead : Row.Statement .syncHead := Row.of_args rfl rfl
theorem Row.syncTail : Row.Statement .syncTail := Row.of_args rfl rfl

end Sys2Proof.Laws
end

