-- ==== Sys2Proof/Tests/Slice0.lean ====
section
/-! SUPPORT. Tests of the model. Expected values are those of spec/95_test_vectors.md (part A, B or C, named at each test)
or are written out from the encodings of 30_encoding.md; each test is one step or one function on a small state.
The witnesses at the end meet, together, the hypotheses of the statements they are named after. -/

namespace Sys2Proof.Tests

open Sys2Proof Sys2Proof.Machine

/-! ### Helpers -/

/-- What a test reads of an outcome's next state. -/
def nextOf {α : Type} (f : State → α) : Host.Outcome State Fault Refusal → Option α
  | .next s => some (f s)
  | .fault _ => none
  | .refused _ => none

/-- After BEGIN 9600: `CTRL` = 0x07, `UBRR` = 103, `fg.pc` = 1; everything else as at reset. -/
def afterBegin : State :=
  { State.reset with
    program := [0x0500000000002580#64]
    ctrl := { rxen := true, txen := true, rxcie := true, txie := false }
    ubrr := 103#16
    fg := { State.reset.fg with pc := 1 } }

/-- After BEGIN, with receive indices H, T, HV, TV, slots and offered bytes. -/
def rxAt (h t hv tv : Nat) (mem : Memory) (inp : List Byte) : State :=
  { afterBegin with
    rx := { afterBegin.rx with head := h, tail := t, headView := hv, tailView := tv, mem := mem }
    line := { afterBegin.line with inp := inp } }

/-- After BEGIN, with transmit indices, slots and TXIE. -/
def txAt (h t : Nat) (mem : Memory) (txie : Bool) : State :=
  { afterBegin with
    tx := { mem := mem, head := h, tail := t }
    ctrl := { afterBegin.ctrl with txie := txie } }

/-- A state whose next turn is an agent's. -/
def onTurn (a : Agent) (s : State) : State := { s with sched := [.agent a] }

/-- A byte of ASCII text. -/
def ascii (s : String) : List Byte := s.toList.map fun c => BitVec.ofNat 8 c.toNat

/-! ### Well-formedness: each check refuses an ill-formed term -/

theorem test_reference_valid : Config.reference.valid = true := by decide
theorem test_odd_receive_capacity_refused : ({ Config.reference with cRx := 149 }).rxEven = false := by decide
theorem test_receive_capacity_0_refused : ({ Config.reference with cRx := 0 }).rxRange = false := by decide
theorem test_receive_capacity_65538_refused : ({ Config.reference with cRx := 65538 }).rxRange = false := by decide
theorem test_transmit_capacity_1_refused : ({ Config.reference with cTx := 1 }).txRange = false := by decide
theorem test_transmit_capacity_65537_refused : ({ Config.reference with cTx := 65537 }).txRange = false := by decide
theorem test_clock_15_refused : ({ Config.reference with fClk := 15 }).clkRange = false := by decide
theorem test_clock_4294967296_refused : ({ Config.reference with fClk := 4294967296 }).clkRange = false := by decide
theorem test_smallest_instance_valid : ({ Config.reference with cRx := 2, cTx := 2, fClk := 16 }).valid = true := by
  decide
theorem test_largest_instance_valid :
    ({ Config.reference with cRx := 65536, cTx := 65536, fClk := 4294967295 }).valid = true := by decide
theorem test_event_not_wellformed_for_foreground : Instr.wellFormedFor .fg .txDrain = false := by decide
theorem test_command_not_wellformed_for_handler : Instr.wellFormedFor .rxp (.write 0x41#8) = false := by decide
theorem test_event_not_wellformed_for_other_agent : Instr.wellFormedFor .sh .syncTail = false := by decide

/-- An instance out of range takes no step (U4). -/
theorem test_invalid_instance_refused :
    step { State.reset with cfg := { Config.reference with cRx := 149 } } = .refused .notAnInstance := rfl

/-! ### Decoding: one word written out for every constructor (R102, R103; vectors B1) -/

theorem test_decode_available : decodeCommand 0x0100000000000000#64 = .ok .available := rfl
theorem test_decode_read : decodeCommand 0x0200000000000000#64 = .ok .read := rfl
theorem test_decode_flush : decodeCommand 0x0300000000000000#64 = .ok .flush := rfl
theorem test_decode_write : decodeCommand 0x04000000000000FF#64 = .ok (.write 0xFF#8) := rfl
theorem test_decode_begin : decodeCommand 0x050000000001C200#64 = .ok (.beginUart 115200#32) := rfl
theorem test_decode_print_byte : decodeCommand 0x060000000000000A#64 = .ok (.printByte 0x0A#8) := rfl
theorem test_decode_print_string : decodeCommand 0x0700000000000100#64 = .ok (.printString 0x0100#16) := rfl
theorem test_decode_print_pgm_string :
    decodeCommand 0x080000000000FFFF#64 = .ok (.printPgmString 0xFFFF#16) := rfl
theorem test_decode_print_int_base :
    decodeCommand 0x09FF0000FFFFFFFF#64 = .ok (.printIntBase 4294967295#32 255#8) := rfl
theorem test_decode_print_int :
    decodeCommand 0x0A00000080000000#64 = .ok (.printInt (BitVec.ofInt 32 (-2147483648))) := rfl
theorem test_decode_print_float : decodeCommand 0x0B0000007FC00000#64 = .ok (.printFloat 0x7FC00000#32) := rfl
theorem test_decode_rx_push : decodeEvent .rxp 0x810000000000000D#64 = some (.rxPush 0x0D#8) := by decide
theorem test_decode_tx_drain : decodeEvent .txc 0x8200000000000000#64 = some .txDrain := by decide
theorem test_decode_sync_head : decodeEvent .sh 0x8300000000000000#64 = some .syncHead := by decide
theorem test_decode_sync_tail : decodeEvent .st 0x8400000000000000#64 = some .syncTail := by decide

/-- A word built field by field: OP 0x09, ARG1 16, RSVD 0, ARG0 255 (R102). -/
theorem test_encode_print_int_base :
    encode (.printIntBase 255#32 16#8) = 0x09#8 ++ 0x10#8 ++ 0x0000#16 ++ 0x000000FF#32 := by decide

/-- B1: what the command port refuses, with the reason. -/
theorem test_refused_words :
    decodeCommand 0x0400000000000141#64 = .error .reservedNonzero ∧
    decodeCommand 0x0400000100000041#64 = .error .reservedNonzero ∧
    decodeCommand 0x070000000001FFFF#64 = .error .reservedNonzero ∧
    decodeCommand 0x0910800000000000#64 = .error .reservedNonzero ∧
    decodeCommand 0x0B01000040490FD0#64 = .error .reservedNonzero ∧
    decodeCommand 0x0000000000000000#64 = .error .illegalOpcode ∧
    decodeCommand 0x7F00000000000000#64 = .error .illegalOpcode ∧
    decodeCommand 0x8000000000000000#64 = .error .eventOnCommandPort ∧
    decodeCommand 0xFF00000000000000#64 = .error .eventOnCommandPort :=
  ⟨rfl, rfl, rfl, rfl, rfl, rfl, rfl, rfl, rfl⟩

/-- B1: words that are no event of the agent a trace names. -/
theorem test_trace_words_that_are_no_step :
    decodeEvent .rxp 0x8500000000000000#64 = none ∧ decodeEvent .rxp 0x8100000000000100#64 = none ∧
    decodeEvent .txc 0x810000000000000D#64 = none ∧ decodeEvent .fg 0x0100000000000000#64 = none := by decide

/-- The table's numbering: bits 63:56 are OP, whatever `nbits` of the row is. -/
theorem test_table_word :
    decodeTableWord 64 0x0400000000000041 = some (.write 0x41#8) ∧
    decodeTableWord 64 0x8400000000000000 = some .syncTail ∧
    decodeTableWord 64 0x0C00000000000000 = none := by decide

/-! ### Placing a word where the next step takes it -/

theorem test_placed_command_runs :
    (step (State.reset.withFetchWord 64 0x0500000000002580) matches .next _) = true ∧
    nextOf (fun s => s.ubrr) (step (State.reset.withFetchWord 64 0x0500000000002580)) = some 103#16 := by decide

theorem test_placed_event_runs :
    nextOf (fun s => s.hist) (step (State.reset.withFetchWord 64 0x8100000000000041)) = some [.rxAccepted 0x41#8] := by
  decide

/-! ### Receive FIFO (B2) -/

/-- B2.1. -/
theorem test_rx_push_stores :
    nextOf (fun s => (s.rx.mem, s.rx.head, s.hist)) (exec (.rxPush 0x41#8) (rxAt 0 0 0 0 [] [0x41#8])) =
      some ([(0, 0x41#8)], 1, [.rxAccepted 0x41#8]) := by decide

/-- B2.4: the view is stale, and the byte is dropped though slots are free. -/
theorem test_rx_push_drops :
    nextOf (fun s => (s.rx.mem, s.rx.head, s.hist)) (exec (.rxPush 0x44#8) (rxAt 4 10 4 5 [] [0x44#8])) =
      some ([], 4, [.rxDropped 0x44#8]) := by decide

/-- B2.5. -/
theorem test_available_wraps : nextOf (fun s => s.res) (exec .available (rxAt 3 148 3 148 [] [])) = some 5#16 := by
  decide

/-- B2.6: bytes not yet visible do not count. -/
theorem test_available_counts_the_view : nextOf (fun s => s.res) (exec .available (rxAt 7 0 0 0 [] [])) = some 0#16 := by
  decide

/-- B2.9. -/
theorem test_read_nothing :
    nextOf (fun s => (s.res, s.rx.tail)) (exec .read (rxAt 37 37 37 37 [] [])) = some (0xFFFF#16, 37) := by decide

/-- B2.11: a byte 0xFF is not the sentinel. -/
theorem test_read_byte :
    nextOf (fun s => (s.res, s.rx.tail)) (exec .read (rxAt 6 5 6 5 [(5, 0xFF#8)] [])) = some (0x00FF#16, 6) := by decide

/-- B2.13: FLUSH copies the view, not the head. -/
theorem test_flush : nextOf (fun s => s.rx.tail) (exec .flush (rxAt 18 10 17 10 [] [])) = some 17 := by decide

/-! ### Gray code and synchronisers (B3) -/

theorem test_gray_codes :
    grayCode 150 0 = 0x2F#16 ∧ grayCode 150 74 = 0x40#16 ∧ grayCode 150 75 = 0xC0#16 ∧ grayCode 150 149 = 0xAF#16 ∧
    grayCode 50 0 = 0x04#16 ∧ grayCode 50 49 = 0x24#16 ∧ grayCode 6 5 = 5#16 ∧ grayCode 2 1 = 1#16 := by decide

theorem test_gray_decode :
    grayDecode 150 0xAD#16 = 148 ∧ grayDecode 150 0x2F#16 = 0 ∧ grayDecode 150 0xC0#16 = 75 := by decide

/-- B3.3. -/
theorem test_sync_head : nextOf (fun s => s.rx.headView) (exec .syncHead (rxAt 2 147 147 147 [] [])) = some 2 := by decide

/-- B3.4. -/
theorem test_sync_tail : nextOf (fun s => s.rx.tailView) (exec .syncTail (rxAt 20 20 20 12 [] [])) = some 20 := by decide

/-! ### Transmit FIFO (B4) -/

/-- B4.1. -/
theorem test_write_into_empty :
    nextOf (fun s => (s.tx.mem, s.tx.head, s.ctrl.word, s.fg.pc)) (exec (.write 0x41#8) (txAt 0 0 [] false)) =
      some ([(0, 0x41#8)], 1, 0x0F#8, 2) := by decide

/-- B4.3. -/
theorem test_write_holds : exec (.write 0x43#8) (txAt 49 0 [] true) = .next (txAt 49 0 [] true) := rfl

/-- B4.4. -/
theorem test_print_byte_wraps :
    nextOf (fun s => (s.tx.mem, s.tx.head)) (exec (.printByte 0x44#8) (txAt 49 1 [] true)) =
      some ([(49, 0x44#8)], 0) := by decide

/-- B4.8. -/
theorem test_tx_drain_sends :
    nextOf (fun s => (s.line.out, s.tx.tail, s.ctrl.txie)) (exec .txDrain (txAt 1 49 [(49, 0x0A#8)] true)) =
      some ([0x0A#8], 0, true) := by decide

/-- B4.7. -/
theorem test_tx_drain_disarms :
    nextOf (fun s => (s.line.out, s.ctrl.word)) (exec .txDrain (txAt 1 1 [] true)) = some ([], 0x07#8) := by decide

/-! ### BEGIN (B5) -/

theorem test_divisors :
    divisor 16000000 16 = some 62499#16 ∧ divisor 16000000 15 = none ∧ divisor 16000000 9600 = some 103#16 ∧
    divisor 16000000 250000 = some 3#16 ∧ divisor 16000000 2000000 = some 0#16 ∧ divisor 16000000 4000000 = none ∧
    divisor 8000000 115200 = some 3#16 ∧ divisor 24 1 = some 0#16 := by decide

/-- B5.2: TXIE is not written. -/
theorem test_begin_after_a_byte :
    nextOf (fun s => (s.ubrr, s.ctrl.word, s.fg.pc))
        (exec (.beginUart 115200#32) { State.reset with ctrl := { State.reset.ctrl with txie := true } }) =
      some (8#16, 0x0F#8, 1) := by decide

/-- B5.3. -/
theorem test_begin_twice :
    nextOf (fun s => (s.mark.fault, s.ubrr, s.ctrl.word, s.fg.pc)) (exec (.beginUart 9600#32) afterBegin) =
      some (some .rebegin, 103#16, 0x07#8, 1) := by decide

/-! ### Strings (B6) -/

/-- B6.5 and B6.6: the strings of those vectors. -/
def withStrings : State :=
  { afterBegin with
    data := [(0, 0x43#8), (0x100, 0x6F#8), (0x101, 0x6B#8), (0xFFFE, 0x41#8), (0xFFFF, 0x42#8)]
    pgm := [(0x100, 0x4F#8), (0x101, 0x4B#8)] }

theorem test_print_string :
    nextOf (fun s => (microSteps 4 s).tx.mem) (exec (.printString 0xFFFE#16) withStrings) =
      some [(0, 0x41#8), (1, 0x42#8), (2, 0x43#8)] := by decide

theorem test_print_pgm_string :
    nextOf (fun s => ((microSteps 3 s).tx.mem, (microSteps 3 s).fg)) (exec (.printPgmString 0x0100#16) withStrings) =
      some ([(0, 0x4F#8), (1, 0x4B#8)], { pc := 2, mode := .idle, pending := [], cursor := none }) := by decide

/-! ### Integers (B7) -/

theorem test_print_int_base :
    nextOf (fun s => s.fg.pending) (exec (.printIntBase 4294967295#32 36#8) afterBegin) = some (ascii "1Z141Z3") := by
  decide

theorem test_print_int_base_1 :
    nextOf (fun s => (s.mark.fault, s.fg.pending)) (exec (.printIntBase 7#32 1#8) afterBegin) =
      some (some .badBase, []) := by decide

theorem test_digit_bytes :
    digitChar 36 = 0x5B#8 ∧ digitChar 200 = 0xFF#8 ∧ digitChar 201 = 0x00#8 ∧ digitChar 254 = 0x35#8 := by decide

theorem test_print_int :
    nextOf (fun s => s.fg.pending) (exec (.printInt 0xFFFFFFD6#32) afterBegin) = some (ascii "-42") := by decide

theorem test_print_int_min :
    nextOf (fun s => s.fg.pending) (exec (.printInt 0x80000000#32) afterBegin) = some (ascii "-2147483648") := by decide

/-! ### Floats (B8) -/

theorem test_print_float :
    nextOf (fun s => s.fg.pending) (exec (.printFloat 0x40490FD0#32) afterBegin) = some (ascii "3.142") := by decide

theorem test_print_float_tie_unpadded :
    nextOf (fun s => s.fg.pending)
        (exec (.printFloat 0xC0040000#32) { afterBegin with cfg := { Config.reference with fracPad := .unpadded } }) =
      some (ascii "-2.63") := by decide

/-- What PRINT_FLOAT would enqueue, or the reason it faults with. -/
def floatText (pad : FracPad) (x : BitVec 32) : List Byte × Option Fault :=
  match fmtFloat pad x with
  | .ok bs => (bs, none)
  | .error r => ([], some r)

theorem test_format_floats :
    floatText .pad3 0x3F7FF972#32 = (ascii "0.1000", none) ∧ floatText .pad3 0xBF000000#32 = (ascii "0.500", none) ∧
    floatText .pad3 0x3B23D70A#32 = (ascii "0.002", none) ∧ floatText .unpadded 0x3D4CCCCD#32 = (ascii "0.50", none) ∧
    floatText .pad3 0x00000001#32 = (ascii "0.000", none) ∧
    floatText .pad3 0xCF000000#32 = (ascii "-2147483648.000", none) := by decide +kernel

theorem test_float_faults :
    floatText .pad3 0x4F000000#32 = ([], some .floatIntRange) ∧
    floatText .pad3 0xCF000001#32 = ([], some .floatIntRange) ∧
    floatText .pad3 0x7FC00000#32 = ([], some .floatNotFinite) ∧
    floatText .pad3 0xFF800000#32 = ([], some .floatNotFinite) := by decide +kernel

/-! ### Refusals and faults in a program (B9) -/

/-- B9.1, and that no agent steps afterwards (R48). -/
theorem test_refused_word_marks :
    nextOf (fun s => (s.mark.refused, s.fg.pc, s.hist))
        (step (onTurn .fg { State.reset with program := [0x0C00000000000000#64] })) =
      some (some .illegalOpcode, 0, [.refused .illegalOpcode 0x0C00000000000000#64 0]) ∧
    step { State.reset with mark := { fault := none, refused := some .illegalOpcode } } =
      .refused (.commandRefused .illegalOpcode) := ⟨by decide, rfl⟩

/-- The codes of R282 and R283. -/
theorem test_reason_codes :
    RefuseReason.eventOnCommandPort.code = 1 ∧ RefuseReason.illegalOpcode.code = 2 ∧
    RefuseReason.reservedNonzero.code = 3 ∧ Fault.badBase.code = 16 ∧ Fault.badBaud.code = 17 ∧
    Fault.rebegin.code = 18 ∧ Fault.floatNotFinite.code = 19 ∧ Fault.floatIntRange.code = 20 ∧
    Fault.unwrittenSlot.code = 21 := by decide

/-! ### The assembler's lines (R108; A11, B8) -/

theorem test_assemble_floats :
    assemble (.print_float (.decimal false 105 2)) = some 0x0B0000003F866666#64 ∧
    assemble (.print_float (.decimal true 123456 3)) = some 0x0B000000C2F6E979#64 ∧
    assemble (.print_float (.decimal false 25 4)) = some 0x0B0000003B23D70A#64 ∧
    assemble (.print_float (.decimal false 10000000000 0)) = some 0x0B000000501502F9#64 ∧
    assemble (.print_float (.hex 0x7FC00000)) = some 0x0B0000007FC00000#64 := by decide

/-- Program C5, C1's formatting lines and a trace line, as text. -/
theorem test_assemble_text :
    assembleProgram ["write 'x'", "begin 115200", "write 'y'"] =
      some [0x0400000000000078#64, 0x050000000001C200#64, 0x0400000000000079#64] ∧
    assembleText "print_float -123.456" = some 0x0B000000C2F6E979#64 ∧
    assembleText "sync_tail" = some 0x8400000000000000#64 ∧
    assembleProgram ["tx_drain"] = none ∧ assembleText "print_int_base 255 16" = none ∧ assembleText "write" = none := by
  decide

theorem test_assembly_errors :
    assemble (.write (.decimal false 256 0)) = none ∧ assemble (.print_int (.decimal false 2147483648 0)) = none ∧
    assemble (.print_string (.hex 0x10000)) = none ∧ assemble (.begin_ (.decimal true 1 0)) = none := by decide

/-! ### Witnesses: states -/

/-- Two bytes accepted, the first visible; the next command is READ. -/
def twoReceived : State :=
  { afterBegin with
    program := [0x0500000000002580#64, 0x0200000000000000#64]
    rx :=
      { mem := [(0, 0x41#8), (1, 0x42#8)], head := 2, tail := 0, headView := 1, tailView := 0
        headGray := grayCode 150 2, tailGray := grayCode 150 0
        headSync := List.replicate 2 (grayCode 150 1), tailSync := List.replicate 2 (grayCode 150 0) }
    line := { out := [], inp := [0x43#8], ready := true }
    hist := [.rxAccepted 0x41#8, .rxAccepted 0x42#8] }

/-- One byte stored and not yet sent. -/
def oneToSend : State := txAt 1 0 [(0, 0x41#8)] true

/-- One byte sent, and TXIE still set: ACTIVE, empty. -/
def activeEmpty : State :=
  { txAt 1 1 [(0, 0x41#8)] true with
    line := { out := [0x41#8], inp := [], ready := true }
    hist := [.txSent 0x41#8] }

/-- An instance with two slots in each FIFO. -/
def tiny : Config := { cRx := 2, cTx := 2, fClk := 16, fracPad := .unpadded, syncStages := 3 }

/-- Before BEGIN, the transmit FIFO full, the next command WRITE 0x42. -/
def fullBeforeBegin : State :=
  { State.resetWith tiny [0x0400000000000041#64, 0x0400000000000042#64] [] [] [] true [.agent .fg] 0 with
    tx := { mem := [(0, 0x41#8)], head := 1, tail := 0 }
    fg := { pc := 1, mode := .idle, pending := [], cursor := none } }

/-- PRINT_STRING in progress, at address `a`. -/
def inString (a : Addr16) (s : State) : State :=
  onTurn .fg { s with fg := { pc := 0, mode := .busy, pending := [], cursor := some (.data, a) } }

/-- A byte-list command in progress. -/
def inBytes (bs : List Byte) (s : State) : State :=
  onTurn .fg { s with fg := { pc := 0, mode := .busy, pending := bs, cursor := none } }

theorem test_invariant_two_received : twoReceived.Inv := by constructor <;> decide
theorem test_invariant_one_to_send : oneToSend.Inv := by constructor <;> decide
theorem test_invariant_active_empty : activeEmpty.Inv := by constructor <;> decide
theorem test_invariant_full_before_begin :
    { fullBeforeBegin with ctrl := { fullBeforeBegin.ctrl with txie := true } }.Inv := by constructor <;> decide
theorem test_invariant_after_begin : afterBegin.Inv := by constructor <;> decide

/-! ### Witnesses: encoding -/

theorem test_witness_commands_decode : (Instr.printIntBase 255#32 16#8).issuer = .fg := by decide

theorem test_witness_accepted_word : decodeCommand 0x09FF0000FFFFFFFF#64 = .ok (.printIntBase 4294967295#32 255#8) := rfl

/-- Words at the ends of the ranges of OP. -/
theorem test_witness_port_refusals :
    (0x8000000000000000#64).getLsbD 63 = true ∧
    (0x0000000000000000#64).getLsbD 63 = false ∧ (fieldOp 0x0000000000000000#64).toNat = 0 ∧
    (0x0C00000000000000#64).getLsbD 63 = false ∧ 0x0B < (fieldOp 0x0C00000000000000#64).toNat ∧
    (0x7F00000000000000#64).getLsbD 63 = false ∧ 0x0B < (fieldOp 0x7F00000000000000#64).toNat ∧
    1 ≤ (fieldOp 0x0100000000000000#64).toNat ∧ (fieldOp 0x0100000000000000#64).toNat ≤ 0x0B ∧
    1 ≤ (fieldOp 0x0B00000000000000#64).toNat ∧ (fieldOp 0x0B00000000000000#64).toNat ≤ 0x0B := by decide

theorem test_witness_assembled_lines :
    assemble (.print_int (.decimal true 42 0)) = some 0x0A000000FFFFFFD6#64 ∧
    assemble (.rx_push (.char 0x0D#8)) = some 0x810000000000000D#64 := by decide

/-! ### Witnesses: reset and steps -/

theorem test_witness_clean_entry :
    tiny.valid = true ∧ Memory.imageWf [(0, 0x6F#8), (65535, 0x6B#8)] = true ∧ Memory.imageWf [] = true := by decide

theorem test_witness_after_reset :
    tiny.valid = true ∧ Agent.txc ≠ .fg ∧
    (State.resetWith tiny [] [] [] [0x41#8] true [.agent .txc] 0).nextTurn = .agent .txc := by decide

theorem test_witness_step_runs_command :
    (onTurn .fg twoReceived).cfg.valid = true ∧ (onTurn .fg twoReceived).Unmarked ∧
    (onTurn .fg twoReceived).nextTurn = .agent .fg ∧ (onTurn .fg twoReceived).fg.mode = .idle ∧
    (onTurn .fg twoReceived).program[(onTurn .fg twoReceived).fg.pc]? = some 0x0200000000000000#64 := by decide

theorem test_witness_step_runs_command_decodes : decodeCommand 0x0200000000000000#64 = .ok .read := rfl

theorem test_witness_step_raises_event :
    (onTurn .rxp twoReceived).cfg.valid = true ∧ (onTurn .rxp twoReceived).Unmarked ∧
    (onTurn .rxp twoReceived).nextTurn = .agent .rxp ∧ twoReceived.ctrl.rxen = true ∧ twoReceived.ctrl.rxcie = true ∧
    twoReceived.line.inp = [0x43#8] ∧
    (onTurn .txc oneToSend).cfg.valid = true ∧ (onTurn .txc oneToSend).Unmarked ∧
    (onTurn .txc oneToSend).nextTurn = .agent .txc ∧ oneToSend.ctrl.txen = true ∧ oneToSend.ctrl.txie = true ∧
    oneToSend.line.ready = true ∧
    (onTurn .sh twoReceived).nextTurn = .agent .sh ∧ (onTurn .st twoReceived).nextTurn = .agent .st := by decide

/-- One state for each clause: FG past the end, RXP before BEGIN, RXP with nothing offered, TXC with TXIE = 0. -/
theorem test_witness_disabled_agents :
    afterBegin.cfg.valid = true ∧ (onTurn .fg afterBegin).Unmarked ∧ (onTurn .fg afterBegin).nextTurn = .agent .fg ∧
    afterBegin.fg.mode = .idle ∧ afterBegin.program.length ≤ afterBegin.fg.pc ∧
    (onTurn .rxp State.reset).Unmarked ∧ State.reset.cfg.valid = true ∧
    (onTurn .rxp State.reset).nextTurn = .agent .rxp ∧ State.reset.ctrl.rxen = false ∧
    (onTurn .rxp afterBegin).nextTurn = .agent .rxp ∧ afterBegin.line.inp = [] ∧
    (onTurn .txc afterBegin).nextTurn = .agent .txc ∧ afterBegin.ctrl.txie = false := by decide

/-- The state of B9.2: the refused word is the second one. -/
def refusedNext : State :=
  onTurn .fg { afterBegin with program := [0x0500000000002580#64, 0x8200000000000000#64] }

theorem test_witness_refused_word :
    refusedNext.cfg.valid = true ∧ refusedNext.Unmarked ∧ refusedNext.nextTurn = .agent .fg ∧
    refusedNext.fg.mode = .idle ∧ refusedNext.program[refusedNext.fg.pc]? = some 0x8200000000000000#64 := by decide

theorem test_witness_refused_word_decodes :
    decodeCommand 0x8200000000000000#64 = .error .eventOnCommandPort := rfl

theorem test_witness_faulting_instruction :
    afterBegin.mark.fault = none ∧
    ∃ t, exec (.printIntBase 7#32 1#8) afterBegin = .next t ∧ t.mark.fault = some .badBase := ⟨rfl, _, rfl, rfl⟩

theorem test_witness_marked_state :
    ({ State.reset with mark := { fault := some .badBaud, refused := none } }).mark.fault ≠ none ∧
    ({ State.reset with mark := { fault := none, refused := some .illegalOpcode } }).mark.refused ≠ none := by decide

/-- A step of every agent and of the host that answers a next state, from states with the invariant: the hypotheses of
every statement about all steps. -/
theorem test_witness_steps :
    (∃ t, step (onTurn .fg twoReceived) = .next t) ∧ (∃ t, step (onTurn .rxp twoReceived) = .next t) ∧
    (∃ t, step (onTurn .sh twoReceived) = .next t) ∧ (∃ t, step (onTurn .st twoReceived) = .next t) ∧
    (∃ t, step (onTurn .txc oneToSend) = .next t) ∧ (∃ t, step (onTurn .txc activeEmpty) = .next t) ∧
    (∃ t, step { twoReceived with sched := [.host (.offer 0x44#8)] } = .next t) :=
  ⟨⟨_, rfl⟩, ⟨_, rfl⟩, ⟨_, rfl⟩, ⟨_, rfl⟩, ⟨_, rfl⟩, ⟨_, rfl⟩, ⟨_, rfl⟩⟩

/-- The invariant of the states those steps start from. -/
theorem test_witness_steps_invariant :
    (onTurn .fg twoReceived).Inv ∧ (onTurn .rxp twoReceived).Inv ∧ (onTurn .sh twoReceived).Inv ∧
    (onTurn .st twoReceived).Inv ∧ (onTurn .txc oneToSend).Inv ∧ (onTurn .txc activeEmpty).Inv := by
  refine ⟨?_, ?_, ?_, ?_, ?_, ?_⟩ <;> constructor <;> decide

/-- The turns excluded by the one-writer rule, and its clauses' other turns. -/
theorem test_witness_turns :
    (onTurn .fg twoReceived).nextTurn ≠ .agent .rxp ∧ (onTurn .rxp twoReceived).nextTurn ≠ .agent .fg ∧
    (onTurn .fg twoReceived).nextTurn ≠ .agent .sh ∧ (onTurn .fg twoReceived).nextTurn ≠ .agent .st ∧
    (onTurn .fg twoReceived).nextTurn ≠ .agent .txc ∧ (onTurn .sh twoReceived).nextTurn ≠ .agent .fg ∧
    (onTurn .sh twoReceived).nextTurn ≠ .agent .txc ∧
    twoReceived.ctrl.rxen = true ∧ twoReceived.ctrl.txen = true ∧ twoReceived.ctrl.rxcie = true := by decide

/-! ### Witnesses: receive FIFO -/

/-- Stored with a wrap (B2.2), dropped (B2.3), not enabled, and not the offered byte. -/
theorem test_witness_rx_push :
    (rxAt 149 5 5 5 [] [0x42#8]).line.inp.head? = some 0x42#8 ∧ (149 + 1) % 150 ≠ (rxAt 149 5 5 5 [] []).rx.tailView ∧
    (rxAt 149 0 0 0 [] [0x43#8]).line.inp.head? = some 0x43#8 ∧ (149 + 1) % 150 = (rxAt 149 0 0 0 [] []).rx.tailView ∧
    (rxAt 149 0 0 0 [] []).cfg.cRx = 150 ∧ (rxAt 149 0 0 0 [] []).ctrl.rxen = true ∧
    (rxAt 149 0 0 0 [] []).ctrl.rxcie = true ∧ State.reset.ctrl.rxen = false ∧
    (rxAt 0 0 0 0 [] [0x43#8]).line.inp.head? ≠ some 0x42#8 := by decide

theorem test_witness_available : State.reset.cfg.valid = true ∧ tiny.valid = true := by decide

/-- Nothing visible, a byte visible at the wrap (B2.10), and an unwritten slot (B2.16). -/
theorem test_witness_read :
    (rxAt 37 37 37 37 [] []).rx.headView = (rxAt 37 37 37 37 [] []).rx.tail ∧
    (rxAt 0 149 0 149 [(149, 0x41#8)] []).rx.headView ≠ (rxAt 0 149 0 149 [(149, 0x41#8)] []).rx.tail ∧
    Memory.read (rxAt 0 149 0 149 [(149, 0x41#8)] []).rx.mem 149 = some 0x41#8 ∧
    (rxAt 1 0 1 0 [] []).rx.headView ≠ (rxAt 1 0 1 0 [] []).rx.tail ∧
    Memory.read (rxAt 1 0 1 0 [] []).rx.mem 0 = none ∧ (rxAt 1 0 1 0 [] []).mark.fault = none := by decide

theorem test_witness_flush_race :
    ∃ t u, exec .flush twoReceived = .next t ∧ exec .syncTail t = .next u := ⟨_, _, rfl, rfl⟩

theorem test_witness_visible_byte :
    twoReceived.rx.headView ≠ twoReceived.rx.tail ∧
    0 < ringDist twoReceived.cfg.cRx twoReceived.rx.tail twoReceived.rx.headView := by decide

/-- Capacities at the ends of R5's range, and the last index of each. -/
theorem test_witness_capacities :
    2 % 2 = 0 ∧ 2 ≤ 2 ∧ 2 ≤ 65536 ∧ 0 + 1 < 2 ∧ 1 < 2 ∧ 65536 % 2 = 0 ∧ 65534 + 1 < 65536 ∧ 65535 < 65536 := by decide

theorem test_witness_gray_registers : twoReceived.GrayHeld := by decide

/-! ### Witnesses: transmit FIFO -/

theorem test_witness_write :
    (Instr.write 0x41#8 = .write 0x41#8 ∨ Instr.write 0x41#8 = .printByte 0x41#8) ∧
    (Instr.printByte 0x41#8 = .write 0x41#8 ∨ Instr.printByte 0x41#8 = .printByte 0x41#8) ∧
    ((txAt 0 0 [] false).tx.head + 1) % 50 ≠ (txAt 0 0 [] false).tx.tail ∧
    ((txAt 49 1 [] true).tx.head + 1) % 50 ≠ (txAt 49 1 [] true).tx.tail ∧
    ((txAt 49 0 [] true).tx.head + 1) % 50 = (txAt 49 0 [] true).tx.tail ∧
    (txAt 49 0 [] true).cfg.cTx = 50 := by decide

/-- A byte to send, an empty FIFO, an unwritten slot, and not enabled. -/
theorem test_witness_tx_drain :
    (oneToSend.ctrl.txen = true ∧ oneToSend.ctrl.txie = true ∧ oneToSend.line.ready = true ∧
      oneToSend.tx.head ≠ oneToSend.tx.tail ∧ Memory.read oneToSend.tx.mem oneToSend.tx.tail = some 0x41#8) ∧
    (activeEmpty.ctrl.txen = true ∧ activeEmpty.ctrl.txie = true ∧ activeEmpty.line.ready = true ∧
      activeEmpty.tx.head = activeEmpty.tx.tail) ∧
    ((txAt 1 0 [] true).ctrl.txen = true ∧ (txAt 1 0 [] true).ctrl.txie = true ∧ (txAt 1 0 [] true).line.ready = true ∧
      (txAt 1 0 [] true).tx.head ≠ (txAt 1 0 [] true).tx.tail ∧
      Memory.read (txAt 1 0 [] true).tx.mem (txAt 1 0 [] true).tx.tail = none ∧
      (txAt 1 0 [] true).mark.fault = none) ∧
    State.reset.ctrl.txen = false ∧ afterBegin.ctrl.txie = false := by decide

theorem test_witness_transmit_states :
    oneToSend.TxActive ∧ afterBegin.TxIdle ∧ activeEmpty.TxActiveEmpty ∧ activeEmpty.ctrl.txen = true ∧
    activeEmpty.line.ready = true := by decide

/-- One byte stored and TXC's turn next. -/
theorem test_witness_stored_bytes :
    (onTurn .txc oneToSend).Unmarked ∧ (onTurn .txc oneToSend).ctrl.txen = true ∧
    (onTurn .txc oneToSend).line.ready = true ∧
    1 = ringDist (onTurn .txc oneToSend).cfg.cTx (onTurn .txc oneToSend).tx.tail (onTurn .txc oneToSend).tx.head ∧
    (onTurn .txc oneToSend).sched = List.replicate 1 (.agent .txc) ++ [] := by decide

theorem test_witness_transmit_steps :
    (∃ t, exec (.write 0x42#8) oneToSend = .next t) ∧ (∃ t, exec .txDrain afterBegin = .next t) ∧
    (∃ t, exec .txDrain activeEmpty = .next t) ∧ (∃ t, exec .txDrain oneToSend = .next t) :=
  ⟨⟨_, rfl⟩, ⟨_, rfl⟩, ⟨_, rfl⟩, ⟨_, rfl⟩⟩

/-- The smallest FIFO, from a slot that wraps: one WRITE fills it. -/
def tinyEmpty : State :=
  { State.resetWith tiny [] [] [] [] true [] 0 with
    tx := { mem := [], head := 1, tail := 1 }
    ctrl := { rxen := true, txen := true, rxcie := true, txie := false } }

theorem test_witness_back_pressure :
    tinyEmpty.cfg.valid = true ∧ tinyEmpty.IndicesInRange ∧ tinyEmpty.tx.head = tinyEmpty.tx.tail ∧
    [0x41#8].length = tinyEmpty.cfg.cTx - 1 ∧ tinyEmpty.ctrl.txen = true ∧ tinyEmpty.line.ready = true := by decide

theorem test_witness_write_before_begin :
    fullBeforeBegin.fg.mode = .idle ∧ fullBeforeBegin.program[fullBeforeBegin.fg.pc]? = some 0x0400000000000042#64 ∧
    (fullBeforeBegin.tx.head + 1) % fullBeforeBegin.cfg.cTx = fullBeforeBegin.tx.tail ∧
    fullBeforeBegin.ctrl.txen = false := by decide

theorem test_witness_write_before_begin_step :
    decodeCommand 0x0400000000000042#64 = .ok (.write 0x42#8) ∧ ∃ t, step fullBeforeBegin = .next t := ⟨rfl, _, rfl⟩

/-! ### Witnesses: BEGIN -/

/-- The lowest and the highest legal baud at 16 MHz, and the bauds next to them (B5). -/
theorem test_witness_begin :
    State.reset.ctrl.rxen = false ∧ State.reset.mark.fault = none ∧ State.reset.cfg.fClk = 16000000 ∧
    (1 ≤ (16000000 / 16 + 16 / 2) / 16 ∧ (16000000 / 16 + 16 / 2) / 16 - 1 ≤ 0xFFFF) ∧
    (1 ≤ (16000000 / 16 + 2000000 / 2) / 2000000 ∧ (16000000 / 16 + 2000000 / 2) / 2000000 - 1 ≤ 0xFFFF) ∧
    0xFFFF < (16000000 / 16 + 15 / 2) / 15 - 1 ∧ (16000000 / 16 + 4000000 / 2) / 4000000 = 0 ∧
    (0#32).toNat = 0 ∧ afterBegin.ctrl.rxen = true ∧ afterBegin.mark.fault = none := by decide

/-! ### Witnesses: strings and byte lists -/

/-- The terminator, a byte held by a full FIFO, and a byte stored; one byte is the last of the address space. -/
theorem test_witness_string_micro_step :
    (inString 0x102#16 withStrings).cfg.valid = true ∧ (inString 0x102#16 withStrings).Unmarked ∧
    (inString 0x102#16 withStrings).nextTurn = .agent .fg ∧ (inString 0x102#16 withStrings).fg.mode = .busy ∧
    (inString 0x102#16 withStrings).fg.cursor = some (.data, 0x102#16) ∧
    Memory.imageRead withStrings.data 0x102#16 = 0#8 ∧
    (inString 0xFFFF#16 withStrings).Unmarked ∧ (inString 0xFFFF#16 withStrings).fg.cursor = some (.data, 0xFFFF#16) ∧
    Memory.imageRead withStrings.data 0xFFFF#16 = 0x42#8 ∧
    (withStrings.tx.head + 1) % withStrings.cfg.cTx ≠ withStrings.tx.tail ∧
    ((txAt 49 0 [] true).tx.head + 1) % (txAt 49 0 [] true).cfg.cTx = (txAt 49 0 [] true).tx.tail := by decide

theorem test_witness_whole_string :
    0 < withStrings.cfg.cTx ∧ withStrings.tx.head < withStrings.cfg.cTx ∧ withStrings.tx.tail < withStrings.cfg.cTx ∧
    (ascii "ABC").length ≤ withStrings.txRoom ∧ (inString 0xFFFE#16 withStrings).fg.mode = .busy ∧
    (inString 0xFFFE#16 withStrings).fg.cursor = some (.data, 0xFFFE#16) ∧ (∀ b ∈ ascii "ABC", b ≠ 0#8) ∧
    (inString 0xFFFE#16 withStrings).memRead .data (0xFFFE#16 + BitVec.ofNat 16 (ascii "ABC").length) = 0#8 := by decide

theorem test_witness_whole_string_bytes :
    ∀ k b, (ascii "ABC")[k]? = some b →
      (inString 0xFFFE#16 withStrings).memRead .data (0xFFFE#16 + BitVec.ofNat 16 k) = b := by
  intro k b h
  match k with
  | 0 | 1 | 2 =>
    cases h
    decide
  | n + 3 => cases h

/-- A last byte, a byte that is not the last, and a full FIFO. -/
theorem test_witness_byte_list :
    (inBytes [0x41#8, 0x42#8] afterBegin).cfg.valid = true ∧ (inBytes [0x41#8, 0x42#8] afterBegin).Unmarked ∧
    (inBytes [0x41#8, 0x42#8] afterBegin).nextTurn = .agent .fg ∧
    (inBytes [0x41#8, 0x42#8] afterBegin).fg.mode = .busy ∧ (inBytes [0x41#8, 0x42#8] afterBegin).fg.cursor = none ∧
    (inBytes [0x41#8, 0x42#8] afterBegin).fg.pending = [0x41#8, 0x42#8] ∧
    (inBytes [0x41#8] afterBegin).fg.pending = [0x41#8] ∧
    (afterBegin.tx.head + 1) % afterBegin.cfg.cTx ≠ afterBegin.tx.tail ∧
    ((inBytes [0x41#8] (txAt 49 0 [] true)).tx.head + 1) % 50 = (inBytes [0x41#8] (txAt 49 0 [] true)).tx.tail ∧
    (inBytes [0x41#8] (txAt 49 0 [] true)).Unmarked ∧ (inBytes [0x41#8] (txAt 49 0 [] true)).fg.mode = .busy := by decide

theorem test_witness_whole_byte_list :
    0 < afterBegin.cfg.cTx ∧ afterBegin.tx.head < afterBegin.cfg.cTx ∧ afterBegin.tx.tail < afterBegin.cfg.cTx ∧
    [0x41#8, 0x42#8].length ≤ afterBegin.txRoom ∧ [0x41#8, 0x42#8] ≠ [] := by decide

/-! ### Witnesses: integers and floats -/

/-- The ends of the ranges of number and base, 0, and each clause of the digit's byte at its ends. -/
theorem test_witness_digits :
    0 < 2 ^ 32 ∧ 4294967295 < 2 ^ 32 ∧ 2 ≤ 2 ∧ 255 ≤ 255 ∧ (4294967295 : Nat) ≠ 0 ∧
    0 < 255 ∧ 9 < 10 ∧ ¬10 < 10 ∧ 200 ≤ 200 ∧ ¬201 ≤ 200 ∧ 254 < 255 := by decide

theorem test_witness_print_int_base :
    2 ≤ (2#8).toNat ∧ (1#8).toNat < 2 ∧ (0#8).toNat < 2 ∧ afterBegin.mark.fault = none := by decide

theorem test_witness_print_int :
    (0x80000000#32).toInt < 0 ∧ 0 ≤ (0#32).toInt ∧ 0 ≤ (0x7FFFFFFF#32).toInt := by decide

/-- -2147483648.0 and the float above 2147483520.0, and the two next to them outside the range (B8). -/
theorem test_witness_print_float :
    (f32Exp 0xCF000000#32 ≠ 255 ∧ -2 ^ 31 ≤ specInt 0xCF000000#32 ∧ specInt 0xCF000000#32 ≤ 2 ^ 31 - 1) ∧
    (f32Exp 0x4EFFFFFF#32 ≠ 255 ∧ -2 ^ 31 ≤ specInt 0x4EFFFFFF#32 ∧ specInt 0x4EFFFFFF#32 ≤ 2 ^ 31 - 1) := by
  decide +kernel

theorem test_witness_print_float_faults :
    afterBegin.mark.fault = none ∧ f32Exp 0x7FC00000#32 = 255 ∧
    (f32Exp 0xCF000001#32 ≠ 255 ∧ specInt 0xCF000001#32 < -2 ^ 31) ∧
    (f32Exp 0x4F000000#32 ≠ 255 ∧ 2 ^ 31 - 1 < specInt 0x4F000000#32) := by decide +kernel

theorem test_witness_float_output :
    ∃ bs, fmtFloat .pad3 0x40490FD0#32 = .ok bs := ⟨_, rfl⟩

/-! ### Witnesses: handlers and the end of a run -/

theorem test_witness_handlers_commute :
    ∃ s1 s2 s3 s4, exec (.rxPush 0x43#8) { oneToSend with line := twoReceived.line } = .next s1 ∧
      exec .txDrain s1 = .next s2 ∧ exec .txDrain { oneToSend with line := twoReceived.line } = .next s3 ∧
      exec (.rxPush 0x43#8) s3 = .next s4 := ⟨_, _, _, _, rfl, rfl, rfl, rfl⟩

theorem test_witness_final :
    afterBegin.cfg.valid = true ∧ (onTurn .fg afterBegin).Final ∧ (onTurn .fg afterBegin).nextTurn = .agent .fg ∧
    (onTurn .txc afterBegin).Final ∧ (onTurn .txc afterBegin).nextTurn = .agent .txc := by decide

end Sys2Proof.Tests
end

/-! PROOFS. Steps and turns (spec/10_state.md): which step a turn makes, what each agent may write, and the micro-steps of a
byte-list command. -/

namespace Sys2Proof.Machine

variable {s t : State} {u : Turn} {a : Agent} {b : Byte}

/-! ### The step of an agent's turn (R30, R44) -/

/-- Taking a turn enables and disables no agent. -/
@[simp] theorem State.enabled_afterTurn : s.afterTurn.enabled a = s.enabled a := by
  cases a <;> simp [State.enabled, State.rxEnabled, State.txEnabled]

theorem step_eq_agentStep (hv : s.cfg.valid = true) (hm : s.Unmarked) (hu : s.nextTurn = .agent a)
    (he : s.enabled a = true) : step s = agentStep a s.afterTurn := by
  rw [step_eq_takeTurn hv hm.1 hm.2, hu]
  simp [takeTurn, he]

theorem step_eq_afterTurn_of_disabled (hv : s.cfg.valid = true) (hm : s.Unmarked) (hu : s.nextTurn = .agent a)
    (he : s.enabled a = false) : step s = .next s.afterTurn := by
  rw [step_eq_takeTurn hv hm.1 hm.2, hu]
  simp [takeTurn, he]

theorem agentStep_fg_of_idle (hm : s.fg.mode = .idle) : agentStep .fg s = fgIssue s := by
  simp only [agentStep, hm]

theorem agentStep_fg_of_busy (hm : s.fg.mode = .busy) : agentStep .fg s = .next s.microStep := by
  simp only [agentStep, hm]

theorem agentStep_rxp_of_offered {rest : List Byte} (hi : s.line.inp = b :: rest) :
    agentStep .rxp s = exec (.rxPush b) s := by
  simp only [agentStep, hi]

theorem fgIssue_of_decoded {w : CmdWord} {i : Instr} (hw : s.commandWord = some w) (hd : decodeCommand w = .ok i) :
    fgIssue s = exec i s := by
  simp only [fgIssue, hw, hd]

theorem unmarked_of_step (h : step s = .next t) : s.Unmarked := by
  obtain ⟨-, hf, hr, -, -⟩ := step_moves h
  exact ⟨hf, hr⟩

/-- Settles O11: FG's turn passes to its issue step, which executes what the decoder answers. -/
theorem stepRunsDecodedCommand : Obligations.StepRunsDecodedCommand := by
  intro s w i hv hm hu hidle hw hd
  have hpc : s.fg.pc < s.program.length := commandWord_lt hw
  have hw' : s.afterTurn.commandWord = some w := by simpa [State.commandWord] using hw
  refine ⟨?_, State.afterTurn_eq s⟩
  rw [step_eq_agentStep hv hm hu (by simp [State.enabled, hpc]), agentStep_fg_of_idle (by simpa using hidle),
    fgIssue_of_decoded hw' hd]

/-- Settles O12: an enabled handler or synchroniser takes its agent's step, which is its event. -/
theorem stepRaisesTheAgentsEvent : Obligations.StepRaisesTheAgentsEvent := by
  intro s hv hm
  refine ⟨fun b rest hu hrx hie hi => ?_, fun hu htx hie hl => ?_, fun hu => ?_, fun hu => ?_⟩
  · rw [step_eq_agentStep hv hm hu (by simp [State.enabled, State.rxEnabled, hrx, hie, hi])]
    exact agentStep_rxp_of_offered (by simpa using hi)
  · exact step_eq_agentStep hv hm hu (by simp [State.enabled, State.txEnabled, htx, hie, hl])
  · exact step_eq_agentStep hv hm hu rfl
  · exact step_eq_agentStep hv hm hu rfl

/-- Settles O13: each clause denies the enabling condition of the agent whose turn it is. -/
theorem disabledAgentHasNoStep : Obligations.DisabledAgentHasNoStep := by
  intro s hv hm h
  rcases h with ⟨hu, hidle, hend⟩ | ⟨hu, hoff⟩ | ⟨hu, hoff⟩ <;> refine step_eq_afterTurn_of_disabled hv hm hu ?_
  · simp [State.enabled, hidle, hend]
  · rcases hoff with h | h | h <;> simp [State.enabled, State.rxEnabled, h]
  · rcases hoff with h | h | h <;> simp [State.enabled, State.txEnabled, h]

/-- Settles O16: a state with a next state is unmarked. -/
theorem markedStateHasNoStep : Obligations.MarkedStateHasNoStep := by
  intro s t hmark h
  obtain ⟨hf, hr⟩ := unmarked_of_step h
  exact hmark.elim (· hf) (· hr)

/-! ### Events without their enables (R286) -/

theorem exec_rxPush_of_not_enabled (h : s.rxEnabled = false ∨ s.line.inp.head? ≠ some b) :
    exec (.rxPush b) s = .next s := by
  refine if_neg fun he => ?_
  simp only [Bool.and_eq_true, beq_iff_eq] at he
  rcases h with h | h
  · simp [h] at he
  · exact h he.2

theorem exec_txDrain_of_not_enabled (h : s.txEnabled = false) : exec .txDrain s = .next s :=
  if_neg (by simp [h])

/-- Settles O32: each clause denies the guard of its event's meaning. -/
theorem eventWithoutItsEnablesChangesNothing : Obligations.EventWithoutItsEnablesChangesNothing := by
  intro s b
  refine ⟨fun h => exec_rxPush_of_not_enabled ?_, fun h => exec_txDrain_of_not_enabled ?_⟩
  · rcases h with h | h | h
    · exact .inl (by simp [State.rxEnabled, h])
    · exact .inl (by simp [State.rxEnabled, h])
    · exact .inr h
  · rcases h with h | h | h <;> simp [State.txEnabled, h]

/-! ### What ENQ writes (R181) -/

theorem State.enq_frame (h : s.enq b = some t) :
    t = { s with
      tx := { s.tx with mem := t.tx.mem, head := t.tx.head }
      ctrl := { s.ctrl with txie := t.ctrl.txie } } := by
  obtain ⟨-, rfl⟩ := State.enq_eq_some_iff.mp h
  rfl

/-! ### The fields an agent's move may write (R49) -/

/-- Only FG and TXC take a turn that faults (R283). -/
theorem agent_of_fault {i : Instr} (hi : i.issuer = .fg ∨ i = .txDrain) (ha : Turn.agent i.issuer = .agent a) :
    a = .fg ∨ a = .txc := by
  cases ha
  exact hi.imp id (congrArg Instr.issuer ·)

/-- FG writes the tail of the receive FIFO, the head and slots of the transmit FIFO, the control registers, RES and its
own record. -/
theorem Moves.fg_frame (h : Moves s u t) (hu : u = .agent .fg) :
    t = { s with
      rx := { s.rx with tail := t.rx.tail, tailGray := t.rx.tailGray }
      tx := { s.tx with mem := t.tx.mem, head := t.tx.head }
      ctrl := t.ctrl, ubrr := t.ubrr, res := t.res, resWritten := t.resWritten
      fg := t.fg, hist := t.hist, mark := t.mark } := by
  cases h with
  | send _ _ _ _ ht | strSend _ _ _ _ _ _ ht | pendLast _ _ _ _ _ ht | pendSend _ _ _ _ _ _ _ ht =>
    rw [State.enq_frame ht]; rfl
  | rxDrop | rxStore | txDisarm | txSend | syncHead | syncTail | host => cases hu
  | _ => rfl

/-- RXP writes the head and slots of the receive FIFO and takes the bytes offered. -/
theorem Moves.rxp_frame (h : Moves s u t) (hu : u = .agent .rxp) :
    t = { s with
      rx := { s.rx with mem := t.rx.mem, head := t.rx.head, headGray := t.rx.headGray }
      line := { s.line with inp := t.line.inp }, hist := t.hist } := by
  cases h with
  | stay | rxDrop | rxStore => rfl
  | fault r i hi => exact absurd (agent_of_fault hi hu) (by decide)
  | _ => cases hu

/-- TXC writes the tail of the transmit FIFO, TXIE and the bytes sent. -/
theorem Moves.txc_frame (h : Moves s u t) (hu : u = .agent .txc) :
    t = { s with
      tx := { s.tx with tail := t.tx.tail }
      ctrl := { s.ctrl with txie := t.ctrl.txie }
      line := { s.line with out := t.line.out }, hist := t.hist, mark := t.mark } := by
  cases h with
  | stay | fault | txDisarm | txSend => rfl
  | _ => cases hu

/-- SH writes the head's view. -/
theorem Moves.sh_frame (h : Moves s u t) (hu : u = .agent .sh) :
    t = { s with rx := { s.rx with headView := t.rx.headView, headSync := t.rx.headSync } } := by
  cases h with
  | stay | syncHead => rfl
  | fault r i hi => exact absurd (agent_of_fault hi hu) (by decide)
  | _ => cases hu

/-- ST writes the tail's view. -/
theorem Moves.st_frame (h : Moves s u t) (hu : u = .agent .st) :
    t = { s with rx := { s.rx with tailView := t.rx.tailView, tailSync := t.rx.tailSync } } := by
  cases h with
  | stay | syncTail => rfl
  | fault r i hi => exact absurd (agent_of_fault hi hu) (by decide)
  | _ => cases hu

/-- The host writes the line's bytes offered and its readiness. -/
theorem Moves.host_frame {m : HostMove} (h : Moves s u t) (hu : u = .host m) :
    t = { s with line := { s.line with inp := t.line.inp, ready := t.line.ready } } := by
  cases h with
  | stay => rfl
  | host m =>
    obtain ⟨⟨out, inp, ready⟩, rfl, he⟩ := State.hostMove_line (s := s) m
    rw [he]
  | _ => cases hu

/-- Settles O57: on each turn the frame of the agent that moved keeps every other agent's fields. -/
theorem eachFieldHasOneWriter : Obligations.EachFieldHasOneWriter := by
  intro s t h
  obtain ⟨-, -, -, -, hmove⟩ := step_moves h
  match hu : s.nextTurn with
  | .agent .fg => rw [hmove.fg_frame hu]; simp
  | .agent .rxp => rw [hmove.rxp_frame hu]; simp
  | .agent .txc => rw [hmove.txc_frame hu]; simp
  | .agent .sh => rw [hmove.sh_frame hu]; simp
  | .agent .st => rw [hmove.st_frame hu]; simp
  | .host m => rw [hmove.host_frame hu]; simp

/-- A move writes TXIE at most, or is BEGIN and sets the other three enables (R40). -/
theorem Moves.ctrl_cases (h : Moves s u t) :
    (∃ v, t.ctrl = { s.ctrl with txie := v }) ∨
    t.ctrl = { s.ctrl with rxen := true, txen := true, rxcie := true } := by
  cases h with
  | uart => exact .inr rfl
  | txDisarm => exact .inl ⟨false, rfl⟩
  | send _ _ _ _ ht | strSend _ _ _ _ _ _ ht | pendLast _ _ _ _ _ ht | pendSend _ _ _ _ _ _ _ ht =>
    rw [State.enq_frame ht]; exact .inl ⟨_, rfl⟩
  | host m =>
    obtain ⟨l, -, he⟩ := State.hostMove_line (s := s) m
    rw [he]; exact .inl ⟨s.ctrl.txie, rfl⟩
  | _ => exact .inl ⟨s.ctrl.txie, rfl⟩

/-- Settles O58: neither write of CTRL clears one of the three. -/
theorem uartEnablesStaySet : Obligations.UartEnablesStaySet := by
  intro s t h
  obtain ⟨-, -, -, -, hmove⟩ := step_moves h
  rcases hmove.ctrl_cases with ⟨v, hc⟩ | hc <;> simp [hc]

/-! ### The micro-steps of a byte-list command (R44, R183) -/

theorem State.microStep_of_no_cursor (hc : s.fg.cursor = none) : s.microStep = s.pendingStep := by
  simp only [State.microStep, hc]

variable {rest : List Byte}

theorem State.pendingStep_of_full (hq : s.fg.pending = b :: rest) (hf : ringNext s.cfg.cTx s.tx.head = s.tx.tail) :
    s.pendingStep = s := by
  simp only [State.pendingStep, hq, State.enq_eq_none_iff.mpr hf]

theorem State.pendingStep_of_enq (hq : s.fg.pending = b :: rest) (ht : s.enq b = some t) :
    s.pendingStep = if rest = [] then t.complete else t.setPending rest := by
  simp only [State.pendingStep, hq, ht]

/-- The whole effect of a micro-step that does not hold. -/
theorem State.pendingStep_of_room (hq : s.fg.pending = b :: rest) (hf : ringNext s.cfg.cTx s.tx.head ≠ s.tx.tail) :
    s.pendingStep = { s with
      tx := { s.tx with mem := Memory.write s.tx.mem s.tx.head b, head := ringNext s.cfg.cTx s.tx.head }
      ctrl := { s.ctrl with txie := if s.tx.head = s.tx.tail then true else s.ctrl.txie }
      fg :=
        if rest = [] then { pc := s.fg.pc + 1, mode := .idle, pending := [], cursor := none }
        else { s.fg with pending := rest } } := by
  have htxie : (if s.tx.head = s.tx.tail then true else s.ctrl.txie) =
      (s.ctrl.txie || decide (s.tx.head = s.tx.tail)) := by split <;> simp [*]
  rw [State.pendingStep_of_enq hq (State.enq_eq_some_iff.mpr ⟨hf, rfl⟩), htxie]
  split <;> rfl

/-- Settles O41: the step is the micro-step of the state whose turn has been taken. -/
theorem byteListMicroStep : Obligations.ByteListMicroStep := by
  intro s b rest hv hm hu hbusy hc hq
  have hstep : step s = .next s.afterTurn.pendingStep := by
    rw [step_eq_agentStep hv hm hu (by simp [State.enabled, hbusy]), agentStep_fg_of_busy (by simpa using hbusy),
      State.microStep_of_no_cursor (by simpa using hc)]
  have hq' : s.afterTurn.fg.pending = b :: rest := by simpa using hq
  refine ⟨fun hf => ?_, fun hf => ?_⟩
  · rw [hstep, State.pendingStep_of_full hq' (by simpa [ringNext] using hf)]
  · refine ⟨_, hstep, ?_⟩
    rw [State.pendingStep_of_room hq' (by simpa [ringNext] using hf)]
    simp +contextual [Memory.read_write_other, ringNext]

/-- Where there is room, ENQ stores, and the room shrinks by one. -/
theorem State.enq_of_txRoom (b : Byte) (hh : s.tx.head < s.cfg.cTx) (ht : s.tx.tail < s.cfg.cTx) (hr : 0 < s.txRoom) :
    ∃ t, s.enq b = some t ∧ t.tx.head < s.cfg.cTx ∧ t.txRoom + 1 = s.txRoom := by
  unfold State.txRoom at hr
  have hf : ringNext s.cfg.cTx s.tx.head ≠ s.tx.tail := fun e => by
    have := (ringNext_eq_iff ht hh).mp e
    omega
  refine ⟨_, State.enq_eq_some_iff.mpr ⟨hf, rfl⟩, ringNext_lt (by omega), ?_⟩
  simp only [State.txRoom, State.storeTx_cfg, State.storeTx_tx, ringDist_next_right ht hh hf]
  omega

/-- With room for them all, the pending bytes join the transmit queue in order, and the command completes. -/
theorem microSteps_pending (bs : List Byte) (s : State) (hh : s.tx.head < s.cfg.cTx) (ht : s.tx.tail < s.cfg.cTx)
    (hr : bs.length ≤ s.txRoom) (hc : s.fg.cursor = none) (hne : bs ≠ []) (hq : s.fg.pending = bs) :
    (microSteps bs.length s).txQueue = s.txQueue ++ bs.map some ∧
    (microSteps bs.length s).fg = { pc := s.fg.pc + 1, mode := .idle, pending := [], cursor := none } := by
  induction bs generalizing s with
  | nil => exact absurd rfl hne
  | cons b rest ih =>
    rw [List.length_cons] at hr
    obtain ⟨t, he, hth, htr⟩ := State.enq_of_txRoom b hh ht (by omega)
    have hqueue : t.txQueue = s.txQueue ++ [some b] := State.txQueue_enq hh ht he
    have hframe := State.enq_frame he
    have hcfg : t.cfg = s.cfg := by rw [hframe]
    have htail : t.tx.tail = s.tx.tail := by rw [hframe]
    have hfg : t.fg = s.fg := by rw [hframe]
    have hmicro : s.microStep = if rest = [] then t.complete else t.setPending rest :=
      (State.microStep_of_no_cursor hc).trans (State.pendingStep_of_enq hq he)
    rw [List.length_cons, microSteps, hmicro]
    split
    · next hnil =>
      subst hnil
      exact ⟨hqueue, by simp [microSteps, hfg]⟩
    · next hrest =>
      have hroom : (t.setPending rest).txRoom = t.txRoom := rfl
      have hsame : (t.setPending rest).txQueue = t.txQueue := rfl
      obtain ⟨hq1, hfg1⟩ := ih (t.setPending rest) (by simpa [hcfg] using hth) (by simpa [hcfg, htail] using ht)
        (by omega) (by simpa [hfg] using hc) hrest rfl
      refine ⟨?_, by simp [hfg1, hfg]⟩
      rw [hq1, hsame, hqueue]
      simp

/-- Settles O46, by induction on the pending bytes. -/
theorem wholeByteListIsEnqueued : Obligations.WholeByteListIsEnqueued := by
  intro s bs _ hh ht hr _ hc hne hq
  exact microSteps_pending bs s hh ht hr hc hne hq

end Sys2Proof.Machine

/-! PROOFS. The memories and the invariant (spec/20_memory.md): what one turn does to the receive FIFO, to the transmit
FIFO and to the foreground, and from that the queues and every clause of the invariant. -/

namespace Sys2Proof

variable {c a b k : Nat}

/-- The slot `k` further on is `k` away. -/
theorem ringDist_offset (ha : a < c) (hk : k < c) : ringDist c a ((a + k) % c) = k := by
  have hlt : (a + k) % c < c := Nat.mod_lt _ (by omega)
  exact ring_offset_inj ha (ringDist_lt (by omega)) hk (ringDist_reaches ha hlt)

/-- Moving the near end forward shortens the way. -/
theorem ringDist_offset_left (ha : a < c) (hb : b < c) (hk : k ≤ ringDist c a b) :
    ringDist c ((a + k) % c) b = ringDist c a b - k := by
  have hd : ringDist c a b < c := ringDist_lt (by omega)
  have hreach : ((a + k) % c + (ringDist c a b - k)) % c = b := by
    rw [Nat.mod_add_mod, Nat.add_assoc, Nat.add_sub_of_le hk, ringDist_reaches ha hb]
  have h := ringDist_offset (a := (a + k) % c) (k := ringDist c a b - k) (Nat.mod_lt _ (by omega)) (by omega)
  rwa [hreach] at h

/-- Moving the far end forward lengthens the way, as long as it stays below the capacity. -/
theorem ringDist_offset_right (ha : a < c) (hb : b < c) (hk : ringDist c a b + k < c) :
    ringDist c a ((b + k) % c) = ringDist c a b + k := by
  have ho := ringDist_offset (k := k) hb (by omega)
  rw [ringDist_add ha hb (Nat.mod_lt _ (by omega)) (by omega), ho]

theorem Config.capacity_ge_two {c : Config} (h : c.valid = true) : 2 ≤ c.cRx ∧ 2 ≤ c.cTx := by
  simp only [Config.valid, Config.rxRange, Config.txRange, Bool.and_eq_true, decide_eq_true_eq] at h
  omega

end Sys2Proof

namespace Sys2Proof.Machine

variable {s t : State} {u : Turn} {b : Byte} {k : Nat}

/-! ### What is supplied from outside (R72, R87, R300) -/

/-- A move of the host writes the line only. -/
theorem State.hostMove_frame (m : HostMove) : s.hostMove m = { s with line := (s.hostMove m).line } := by
  obtain ⟨l, -, he⟩ := State.hostMove_line (s := s) m
  rw [he]

theorem Moves.keeps_supplied (h : Moves s u t) :
    t.cfg = s.cfg ∧ t.program = s.program ∧ t.data = s.data ∧ t.pgm = s.pgm := by
  cases h with
  | send _ _ _ _ ht | strSend _ _ _ _ _ _ ht | pendLast _ _ _ _ _ ht | pendSend _ _ _ _ _ _ _ ht =>
    rw [State.enq_frame ht]; exact ⟨rfl, rfl, rfl, rfl⟩
  | host m => rw [State.hostMove_frame]; exact ⟨rfl, rfl, rfl, rfl⟩
  | _ => exact ⟨rfl, rfl, rfl, rfl⟩

/-- Settles O17: no move writes one of the four. -/
theorem stepKeepsProgramAndImages : Obligations.StepKeepsProgramAndImages := by
  intro s t h
  obtain ⟨-, -, -, -, hmove⟩ := step_moves h
  simpa using hmove.keeps_supplied

/-! ### What one turn does to the receive FIFO (R81 to R83) -/

/-- The five things a turn can do to the receive FIFO and the accepted bytes, each named by its operation. -/
inductive RxMove (s t : State) : Turn → Prop
  /-- The FIFO is left alone. -/
  | keep (u : Turn) (hrx : t.rx = s.rx) (hacc : acceptedBytes t.hist = acceptedBytes s.hist) : RxMove s t u
  /-- RXP stores an accepted byte. -/
  | store (b : Byte) (hroom : ringNext s.cfg.cRx s.rx.head ≠ s.rx.tailView) (hrx : t.rx = (s.storeRx b).rx)
      (hhist : t.hist = s.hist ++ [.rxAccepted b]) : RxMove s t (.agent .rxp)
  /-- FG moves the tail, past visible bytes only. -/
  | take (i : Nat)
      (hvisible : s.IndicesInRange →
        ∃ k ≤ ringDist s.cfg.cRx s.rx.tail s.rx.headView, i = (s.rx.tail + k) % s.cfg.cRx)
      (hrx : t.rx = (s.setRxTail i).rx) (hhist : t.hist = s.hist) : RxMove s t (.agent .fg)
  /-- SH copies the head. -/
  | syncHead (hrx : t.rx = s.syncHeadView.rx) (hhist : t.hist = s.hist) : RxMove s t (.agent .sh)
  /-- ST copies the tail. -/
  | syncTail (hrx : t.rx = s.syncTailView.rx) (hhist : t.hist = s.hist) : RxMove s t (.agent .st)

/-- READ passes one byte, and it is visible. -/
theorem State.read_passes_visible (hi : s.IndicesInRange) (hv : s.rx.headView ≠ s.rx.tail) :
    1 ≤ ringDist s.cfg.cRx s.rx.tail s.rx.headView := by
  obtain ⟨-, htail, hview, -, -, -⟩ := hi
  exact Nat.pos_of_ne_zero fun h0 => hv ((ringDist_eq_zero htail hview).mp h0).symm

/-- FLUSH passes all the visible bytes. -/
theorem State.flush_passes_visible (hi : s.IndicesInRange) :
    s.rx.headView = (s.rx.tail + ringDist s.cfg.cRx s.rx.tail s.rx.headView) % s.cfg.cRx := by
  obtain ⟨-, htail, hview, -, -, -⟩ := hi
  exact (ringDist_reaches htail hview).symm

theorem Moves.rxMove (h : Moves s u t) : RxMove s t u := by
  cases h with
  | refuse | fault | rxDrop | txSend => exact .keep _ rfl (by simp [acceptedBytes_append, acceptedBytes])
  | readByte b _ _ hv => exact .take _ (fun hi => ⟨1, State.read_passes_visible hi hv, rfl⟩) rfl rfl
  | flush => exact .take _ (fun hi => ⟨_, Nat.le_refl _, State.flush_passes_visible hi⟩) rfl rfl
  | send _ _ _ _ ht | strSend _ _ _ _ _ _ ht | pendLast _ _ _ _ _ ht | pendSend _ _ _ _ _ _ _ ht =>
    rw [State.enq_frame ht]; exact .keep _ rfl rfl
  | rxStore b _ _ hf => exact .store b hf rfl rfl
  | syncHead => exact .syncHead rfl rfl
  | syncTail => exact .syncTail rfl rfl
  | host m => rw [State.hostMove_frame]; exact .keep _ rfl rfl
  | _ => exact .keep _ rfl rfl

theorem RxMove.indices (h : RxMove s t u) (hi : s.IndicesInRange) :
    t.rx.head < s.cfg.cRx ∧ t.rx.tail < s.cfg.cRx ∧ t.rx.headView < s.cfg.cRx ∧ t.rx.tailView < s.cfg.cRx := by
  have hi' := hi
  obtain ⟨hhead, htail, hview, htview, -, -⟩ := hi'
  have hpos : 0 < s.cfg.cRx := by omega
  cases h with
  | keep _ hrx => rw [hrx]; exact ⟨hhead, htail, hview, htview⟩
  | store b _ hrx => rw [hrx]; exact ⟨ringNext_lt hpos, htail, hview, htview⟩
  | take i hvisible hrx =>
    obtain ⟨k, -, rfl⟩ := hvisible hi
    rw [hrx]; exact ⟨hhead, Nat.mod_lt _ hpos, hview, htview⟩
  | syncHead hrx => rw [hrx]; exact ⟨hhead, htail, hhead, htview⟩
  | syncTail hrx => rw [hrx]; exact ⟨hhead, htail, hview, htail⟩

/-! ### The order of the receive indices (R77) -/

theorem State.RxSpan.congr (hcfg : t.cfg = s.cfg) (hrx : t.rx = s.rx) (h : s.RxSpan) : t.RxSpan := by
  simpa only [State.RxSpan, hcfg, hrx] using h

/-- Where RX_PUSH does not drop there is room for one more between `head` and `tail_view`. -/
theorem State.storeRx_rxSpan (hi : s.IndicesInRange) (h : s.RxSpan)
    (hroom : ringNext s.cfg.cRx s.rx.head ≠ s.rx.tailView) : (s.storeRx b).RxSpan := by
  have hcount := State.trueCount_eq hi h
  obtain ⟨hhead, htail, hview, htview, -, -⟩ := hi
  unfold State.RxSpan at h
  have hall := ringDist_add htview htail hhead (by omega)
  have hfull : ringDist s.cfg.cRx s.rx.tailView s.rx.head ≠ s.cfg.cRx - 1 :=
    fun e => hroom ((ringNext_eq_iff htview hhead).mpr e)
  have hstore : ringDist s.cfg.cRx s.rx.headView (ringNext s.cfg.cRx s.rx.head) =
      ringDist s.cfg.cRx s.rx.headView s.rx.head + 1 := ringDist_offset_right hview hhead (by omega)
  simp only [State.RxSpan, State.storeRx_cfg, State.storeRx_rx]
  omega

/-- What the tail passes, the way from `tail_view` to it gains. -/
theorem State.setRxTail_rxSpan (hi : s.IndicesInRange) (h : s.RxSpan)
    (hk : k ≤ ringDist s.cfg.cRx s.rx.tail s.rx.headView) :
    (s.setRxTail ((s.rx.tail + k) % s.cfg.cRx)).RxSpan := by
  obtain ⟨-, htail, hview, htview, -, -⟩ := hi
  unfold State.RxSpan at h
  simp only [State.RxSpan, State.setRxTail_cfg, State.setRxTail_rx, ringDist_offset_left htail hview hk,
    ringDist_offset_right htview htail (show _ + k < _ by omega)]
  omega

theorem State.syncHeadView_rxSpan (hi : s.IndicesInRange) (h : s.RxSpan) : s.syncHeadView.RxSpan := by
  have hcount := State.trueCount_eq hi h
  unfold State.RxSpan at h
  simp only [State.RxSpan, State.syncHeadView_cfg, State.syncHeadView_rx, ringDist_self]
  omega

theorem State.syncTailView_rxSpan (h : s.RxSpan) : s.syncTailView.RxSpan := by
  unfold State.RxSpan at h
  simp only [State.RxSpan, State.syncTailView_cfg, State.syncTailView_rx, ringDist_self]
  omega

theorem RxMove.rxSpan (h : RxMove s t u) (hcfg : t.cfg = s.cfg) (hi : s.IndicesInRange) (hs : s.RxSpan) :
    t.RxSpan := by
  cases h with
  | keep _ hrx => exact hs.congr hcfg hrx
  | store b hroom hrx => exact State.RxSpan.congr (s := s.storeRx b) hcfg hrx (State.storeRx_rxSpan hi hs hroom)
  | take i hvisible hrx =>
    obtain ⟨k, hk, rfl⟩ := hvisible hi
    exact State.RxSpan.congr (s := s.setRxTail _) hcfg hrx (State.setRxTail_rxSpan hi hs hk)
  | syncHead hrx => exact State.RxSpan.congr (s := s.syncHeadView) hcfg hrx (State.syncHeadView_rxSpan hi hs)
  | syncTail hrx => exact State.RxSpan.congr (s := s.syncTailView) hcfg hrx (State.syncTailView_rxSpan hs)

/-! ### The unread bytes (R82, R83) -/

theorem State.rxQueue_congr (hcfg : t.cfg = s.cfg) (hrx : t.rx = s.rx) : t.rxQueue = s.rxQueue := by
  simp only [State.rxQueue, hcfg, hrx]

/-- The unread bytes stay, gain the accepted byte at the end, or lose visible bytes at the front. -/
theorem RxMove.queue (h : RxMove s t u) (hcfg : t.cfg = s.cfg) (hi : s.IndicesInRange) (hs : s.RxSpan) :
    (t.rxQueue = s.rxQueue ∧ acceptedBytes t.hist = acceptedBytes s.hist) ∨
    (∃ b, u = .agent .rxp ∧ t.hist = s.hist ++ [.rxAccepted b] ∧ t.rxQueue = s.rxQueue ++ [some b]) ∨
    (∃ k ≤ ringDist s.cfg.cRx s.rx.tail s.rx.headView,
      u = .agent .fg ∧ t.hist = s.hist ∧ t.rxQueue = s.rxQueue.drop k) := by
  have hi' := hi
  obtain ⟨hhead, htail, -, -, -, -⟩ := hi'
  cases h with
  | keep _ hrx hacc => exact .inl ⟨State.rxQueue_congr hcfg hrx, hacc⟩
  | store b hroom hrx hhist =>
    refine .inr (.inl ⟨b, rfl, hhist, ?_⟩)
    rw [State.rxQueue_congr (s := s.storeRx b) hcfg hrx,
      State.rxQueue_store hhead htail (State.next_ne_tail hi hs hroom)]
  | take i hvisible hrx hhist =>
    obtain ⟨k, hk, rfl⟩ := hvisible hi
    refine .inr (.inr ⟨k, hk, rfl, hhist, ?_⟩)
    have hcount := State.trueCount_eq hi hs
    rw [State.rxQueue_congr (s := s.setRxTail _) hcfg hrx, State.rxQueue_setRxTail hhead htail (by omega)]
  | syncHead hrx hhist => exact .inl ⟨State.rxQueue_congr (s := s.syncHeadView) hcfg hrx, by rw [hhist]⟩
  | syncTail hrx hhist => exact .inl ⟨State.rxQueue_congr (s := s.syncTailView) hcfg hrx, by rw [hhist]⟩

theorem RxMove.rxOrdered (h : RxMove s t u) (hcfg : t.cfg = s.cfg) (hi : s.IndicesInRange) (hs : s.RxSpan)
    (ho : s.RxOrdered) : t.RxOrdered := by
  unfold State.RxOrdered at ho ⊢
  rcases h.queue hcfg hi hs with ⟨hq, hacc⟩ | ⟨b, -, hhist, hq⟩ | ⟨k, -, -, hhist, hq⟩
  · rwa [hq, hacc]
  · obtain ⟨read, hread⟩ := ho
    exact ⟨read, by simp [hq, hhist, acceptedBytes_append, acceptedBytes, ← hread]⟩
  · rw [hq, hhist]
    exact (List.drop_suffix k _).trans ho

theorem State.rxWritten_iff : s.RxWritten ↔ ∀ o ∈ s.rxQueue, o.isSome = true := by
  simp [State.RxWritten, State.rxQueue, ringSlots]

/-- Unread bytes that were accepted stand in written slots. -/
theorem State.RxOrdered.rxWritten (h : s.RxOrdered) : s.RxWritten := by
  refine State.rxWritten_iff.mpr fun o ho => ?_
  obtain ⟨b, -, rfl⟩ := List.mem_map.mp (List.IsSuffix.subset h ho)
  rfl

/-! ### The Gray registers and the receive store (R163, R81) -/

theorem RxMove.gray (h : RxMove s t u) (hcfg : t.cfg = s.cfg) (hg : s.GrayHeld) : t.GrayHeld := by
  obtain ⟨hhead, htail, hview, htview⟩ := hg
  unfold State.GrayHeld
  cases h with
  | keep _ hrx => rw [hrx, hcfg]; exact ⟨hhead, htail, hview, htview⟩
  | store b _ hrx => rw [hrx, hcfg]; exact ⟨rfl, htail, hview, htview⟩
  | take i _ hrx => rw [hrx, hcfg]; exact ⟨hhead, rfl, hview, htview⟩
  | syncHead hrx => rw [hrx, hcfg]; exact ⟨hhead, htail, congrArg _ hhead, htview⟩
  | syncTail hrx => rw [hrx, hcfg]; exact ⟨hhead, htail, hview, congrArg _ htail⟩

theorem RxMove.mem_wf (h : RxMove s t u) (hhead : s.rx.head < s.cfg.cRx)
    (hw : Memory.wf s.cfg.cRx s.rx.mem = true) : Memory.wf s.cfg.cRx t.rx.mem = true := by
  cases h with
  | store b _ hrx => rw [hrx]; exact Memory.wf_write hw hhead
  | keep _ hrx | take _ _ hrx | syncHead hrx | syncTail hrx => rw [hrx]; exact hw

/-! ### What one turn does to the transmit FIFO (R181, R184, R188) -/

/-- The four things a turn can do to the transmit FIFO, TXIE and the bytes sent. -/
inductive TxMove (s t : State) : Turn → Prop
  /-- The FIFO is left alone. -/
  | keep (u : Turn) (htx : t.tx = s.tx) (htxie : t.ctrl.txie = s.ctrl.txie) (hout : t.line.out = s.line.out)
      (hsent : sentBytes t.hist = sentBytes s.hist) : TxMove s t u
  /-- TXC finds nothing to send. -/
  | disarm (hempty : s.tx.head = s.tx.tail) (htx : t.tx = s.tx) (hout : t.line.out = s.line.out)
      (hhist : t.hist = s.hist) : TxMove s t (.agent .txc)
  /-- FG enqueues a byte. -/
  | enq (b : Byte) (e : State) (he : s.enq b = some e) (htx : t.tx = e.tx) (htxie : t.ctrl.txie = e.ctrl.txie)
      (hout : t.line.out = s.line.out) (hhist : t.hist = s.hist) : TxMove s t (.agent .fg)
  /-- TXC sends the byte at the tail. -/
  | send (b : Byte) (hne : s.tx.head ≠ s.tx.tail) (hb : Memory.read s.tx.mem s.tx.tail = some b)
      (htx : t.tx = s.advanceTxTail.tx) (htxie : t.ctrl.txie = s.ctrl.txie) (hout : t.line.out = s.line.out ++ [b])
      (hhist : t.hist = s.hist ++ [.txSent b]) : TxMove s t (.agent .txc)

theorem State.enq_line (h : s.enq b = some t) : t.line = s.line := by rw [State.enq_frame h]

theorem State.enq_hist (h : s.enq b = some t) : t.hist = s.hist := by rw [State.enq_frame h]

theorem Moves.txMove (h : Moves s u t) : TxMove s t u := by
  cases h with
  | refuse | fault | rxDrop | rxStore => exact .keep _ rfl rfl rfl (by simp [sentBytes_append, sentBytes])
  | send b e _ _ he | strSend _ _ e _ _ _ he | pendLast b e _ _ _ he | pendSend b _ e _ _ _ _ he =>
    have hline := State.enq_line he
    have hhist := State.enq_hist he
    exact .enq _ e he rfl rfl (congrArg Line.out hline) hhist
  | txDisarm _ h0 => exact .disarm h0 rfl rfl rfl
  | txSend b _ hne hb => exact .send b hne hb rfl rfl rfl rfl
  | host m =>
    obtain ⟨l, hl, he⟩ := State.hostMove_line (s := s) m
    rw [he]; exact .keep _ rfl rfl hl rfl
  | _ => exact .keep _ rfl rfl rfl rfl

theorem TxMove.indices (h : TxMove s t u) (hi : s.IndicesInRange) :
    t.tx.head < s.cfg.cTx ∧ t.tx.tail < s.cfg.cTx := by
  obtain ⟨-, -, -, -, hhead, htail⟩ := hi
  have hpos : 0 < s.cfg.cTx := by omega
  cases h with
  | keep _ htx | disarm _ htx => rw [htx]; exact ⟨hhead, htail⟩
  | enq b e he htx =>
    obtain ⟨-, rfl⟩ := State.enq_eq_some_iff.mp he
    rw [htx]; exact ⟨ringNext_lt hpos, htail⟩
  | send b _ _ htx => rw [htx]; exact ⟨hhead, ringNext_lt hpos⟩

theorem TxMove.txArmed (h : TxMove s t u) (ha : s.TxArmed) : t.TxArmed := by
  unfold State.TxArmed at ha ⊢
  intro hne
  cases h with
  | keep _ htx htxie => rw [htxie]; exact ha (htx ▸ hne)
  | disarm hempty htx => exact absurd (by rw [htx, hempty]) hne
  | enq b e he htx htxie =>
    obtain ⟨-, rfl⟩ := State.enq_eq_some_iff.mp he
    by_cases hempty : s.tx.head = s.tx.tail
    · simp [htxie, hempty]
    · simp [htxie, ha hempty]
  | send b hnonempty _ _ htxie => rw [htxie]; exact ha hnonempty

theorem TxMove.mem_wf (h : TxMove s t u) (hhead : s.tx.head < s.cfg.cTx)
    (hw : Memory.wf s.cfg.cTx s.tx.mem = true) : Memory.wf s.cfg.cTx t.tx.mem = true := by
  cases h with
  | enq b e he htx =>
    obtain ⟨-, rfl⟩ := State.enq_eq_some_iff.mp he
    rw [htx]; exact Memory.wf_write hw hhead
  | keep _ htx | disarm _ htx | send _ _ _ htx => rw [htx]; exact hw

theorem TxMove.outIsSent (h : TxMove s t u) (ho : s.OutIsSent) : t.OutIsSent := by
  unfold State.OutIsSent at ho ⊢
  cases h with
  | keep _ _ _ hout hsent => rw [hout, hsent, ho]
  | disarm _ _ hout hhist | enq _ _ _ _ _ hout hhist => rw [hout, hhist, ho]
  | send b _ _ _ _ hout hhist => rw [hout, hhist, ho, sentBytes_append]; rfl

/-! ### The unsent bytes (R188) -/

theorem State.txQueue_congr (hcfg : t.cfg = s.cfg) (htx : t.tx = s.tx) : t.txQueue = s.txQueue := by
  simp only [State.txQueue, hcfg, htx]

/-- The unsent bytes stay, gain a byte at the end, or lose the one sent from the front. -/
theorem TxMove.queue (h : TxMove s t u) (hcfg : t.cfg = s.cfg) (hi : s.IndicesInRange) :
    (t.txQueue = s.txQueue ∧ t.line.out = s.line.out) ∨
    (∃ b, u = .agent .fg ∧ t.txQueue = s.txQueue ++ [some b] ∧ t.line.out = s.line.out) ∨
    (∃ b, s.txQueue = some b :: t.txQueue ∧ t.line.out = s.line.out ++ [b]) := by
  obtain ⟨-, -, -, -, hhead, htail⟩ := hi
  cases h with
  | keep _ htx _ hout | disarm _ htx hout => exact .inl ⟨State.txQueue_congr hcfg htx, hout⟩
  | enq b e he htx _ hout =>
    have hcfg' : t.cfg = e.cfg := by rw [hcfg, State.enq_frame he]
    exact .inr (.inl ⟨b, rfl, by rw [State.txQueue_congr hcfg' htx, State.txQueue_enq hhead htail he], hout⟩)
  | send b hne hb htx _ hout =>
    refine .inr (.inr ⟨b, ?_, hout⟩)
    rw [State.txQueue_congr (s := s.advanceTxTail) hcfg htx, State.txQueue_advance hhead htail hne, hb]

theorem State.txWritten_iff : s.TxWritten ↔ ∀ o ∈ s.txQueue, o.isSome = true := by
  simp [State.TxWritten, State.txQueue, ringSlots]

theorem TxMove.txWritten (h : TxMove s t u) (hcfg : t.cfg = s.cfg) (hi : s.IndicesInRange) (hw : s.TxWritten) :
    t.TxWritten := by
  rw [State.txWritten_iff] at hw ⊢
  rcases h.queue hcfg hi with ⟨hq, -⟩ | ⟨b, -, hq, -⟩ | ⟨b, hq, -⟩
  · rwa [hq]
  · rw [hq]
    exact List.forall_mem_append.mpr ⟨hw, by simp⟩
  · rw [hq] at hw
    exact (List.forall_mem_cons.mp hw).2

/-! ### The indices together (R77) -/

theorem Moves.keeps_indices (h : Moves s u t) (hi : s.IndicesInRange) : t.IndicesInRange := by
  obtain ⟨hcfg, -, -, -⟩ := h.keeps_supplied
  obtain ⟨hhead, htail, hview, htview⟩ := h.rxMove.indices hi
  unfold State.IndicesInRange
  rw [hcfg]
  exact ⟨hhead, htail, hview, htview, h.txMove.indices hi⟩

/-- Settles O51: all indices of reset are equal and in range, and no move widens the span past the capacity. -/
theorem rxIndicesKeepTheirSpan : Obligations.RxIndicesKeepTheirSpan := by
  refine ⟨fun c program data pgm inp ready sched turns hv => ?_, fun s t hi hs h => ?_⟩
  · obtain ⟨hrx, htx⟩ := Config.capacity_ge_two hv
    constructor
    · simp only [State.IndicesInRange, State.resetWith]
      omega
    · simp [State.RxSpan, State.resetWith]
  · obtain ⟨-, -, -, -, hmove⟩ := step_moves h
    have hi' : s.afterTurn.IndicesInRange := by simpa [State.IndicesInRange] using hi
    have hs' : s.afterTurn.RxSpan := hs.congr s.afterTurn_cfg s.afterTurn_rx
    exact ⟨hmove.keeps_indices hi', hmove.rxMove.rxSpan hmove.keeps_supplied.1 hi' hs'⟩

/-! ### The foreground, the enables and the marks (R43, R45, R40, R285) -/

theorem State.enq_fg (h : s.enq b = some t) : t.fg = s.fg := by rw [State.enq_frame h]

theorem State.enq_program (h : s.enq b = some t) : t.program = s.program := by rw [State.enq_frame h]

theorem Moves.keeps_fgUse (h : Moves s u t) (hu : s.FgUse) : t.FgUse := by
  obtain ⟨hidle, hbusy⟩ := hu
  cases h with
  | strEnd | pendLast => exact ⟨fun _ => ⟨rfl, rfl⟩, nofun⟩
  | startString _ _ hm => simp [State.FgUse, hidle hm]
  | startBytes bs hbs hm => simp [State.FgUse, hbs, hidle hm]
  | strSend _ _ _ hm hc _ ht =>
    have hnone : s.fg.pending = [] := by simpa [hc] using hbusy hm
    simp [State.FgUse, State.enq_fg ht, hm, hnone]
  | pendSend _ _ _ hr hm hc _ ht => simp [State.FgUse, State.enq_fg ht, hm, hc, hr]
  | send _ _ _ _ ht =>
    simp only [State.FgUse, State.advance_fg, State.enq_fg ht]
    exact ⟨hidle, hbusy⟩
  | host m => rw [State.hostMove_frame]; exact ⟨hidle, hbusy⟩
  | _ => exact ⟨hidle, hbusy⟩

theorem Moves.keeps_pcInProgram (h : Moves s u t) (hpc : s.PcInProgram) : t.PcInProgram := by
  obtain ⟨hle, hlt⟩ := hpc
  cases h with
  | result _ hm hp | readByte _ hm hp | flush hm hp | uart _ hm hp => exact ⟨hp, fun e => by simp [hm] at e⟩
  | send _ _ hm hp ht =>
    simp only [State.PcInProgram, State.advance_fg, State.advance_program, State.enq_fg ht, State.enq_program ht]
    exact ⟨hp, fun e => by simp [hm] at e⟩
  | startString _ _ _ hp | startBytes _ _ _ hp => exact ⟨hle, fun _ => hp⟩
  | strEnd _ _ hm => exact ⟨hlt hm, nofun⟩
  | pendLast _ _ hm _ _ ht =>
    simp only [State.PcInProgram, State.complete_fg, State.complete_program, State.enq_fg ht, State.enq_program ht]
    exact ⟨hlt hm, nofun⟩
  | strSend _ _ _ _ _ _ ht =>
    simp only [State.PcInProgram, State.setCursor_fg, State.setCursor_program, State.enq_fg ht, State.enq_program ht]
    exact ⟨hle, hlt⟩
  | pendSend _ _ _ _ _ _ _ ht =>
    simp only [State.PcInProgram, State.setPending_fg, State.setPending_program, State.enq_fg ht, State.enq_program ht]
    exact ⟨hle, hlt⟩
  | host m => rw [State.hostMove_frame]; exact ⟨hle, hlt⟩
  | _ => exact ⟨hle, hlt⟩

theorem Moves.keeps_enables (h : Moves s u t) (he : s.EnablesTogether) : t.EnablesTogether := by
  unfold State.EnablesTogether at he ⊢
  rcases h.ctrl_cases with ⟨v, hc⟩ | hc <;> rw [hc]
  · exact he
  · exact ⟨rfl, rfl⟩

/-- A turn marks nothing, or a refusal, or a fault; UNWRITTEN_SLOT only where a tail's slot is unwritten (R48, R76). -/
theorem Moves.mark_cases (h : Moves s u t) :
    t.mark = s.mark ∨
    (∃ r, t.mark = ⟨s.mark.fault, s.mark.refused <|> some r⟩) ∨
    (∃ r, t.mark = ⟨s.mark.fault <|> some r, s.mark.refused⟩ ∧
      (r = .unwrittenSlot →
        (Memory.read s.rx.mem s.rx.tail = none ∧ s.rx.headView ≠ s.rx.tail) ∨
        (Memory.read s.tx.mem s.tx.tail = none ∧ s.tx.head ≠ s.tx.tail))) := by
  cases h with
  | refuse r => exact .inr (.inl ⟨r, rfl⟩)
  | fault r i _ hr =>
    exact .inr (.inr ⟨r, rfl, fun e => (hr e).imp (fun h => ⟨h.1, h.2.1⟩) (fun h => ⟨h.1, h.2.1⟩)⟩)
  | send _ _ _ _ ht | strSend _ _ _ _ _ _ ht | pendLast _ _ _ _ _ ht | pendSend _ _ _ _ _ _ _ ht =>
    rw [State.enq_frame ht]; exact .inl rfl
  | host m => rw [State.hostMove_frame]; exact .inl rfl
  | _ => exact .inl rfl

theorem Moves.keeps_oneMark (h : Moves s u t) (hm : s.Unmarked) : t.OneMark := by
  obtain ⟨hfault, hrefused⟩ := hm
  unfold State.OneMark
  rcases h.mark_cases with hmark | ⟨r, hmark⟩ | ⟨r, hmark, -⟩ <;> rw [hmark]
  · exact .inl hfault
  · exact .inl hfault
  · exact .inr hrefused

/-! ### The whole invariant -/

theorem Moves.keeps_inv (h : Moves s u t) (hs : s.Inv) (hm : s.Unmarked) : t.Inv := by
  obtain ⟨hcfg, -, hdata, hpgm⟩ := h.keeps_supplied
  obtain ⟨hrxMem, htxMem, hdataWf, hpgmWf⟩ := hs.memories
  obtain ⟨hrxHead, -, -, -, htxHead, -⟩ := hs.indices
  have hrx := h.rxMove
  have htx := h.txMove
  have hordered := hrx.rxOrdered hcfg hs.indices hs.rxSpan hs.rxOrdered
  exact
    { valid := by rw [hcfg]; exact hs.valid
      indices := h.keeps_indices hs.indices
      rxSpan := hrx.rxSpan hcfg hs.indices hs.rxSpan
      txArmed := htx.txArmed hs.txArmed
      rxWritten := hordered.rxWritten
      txWritten := htx.txWritten hcfg hs.indices hs.txWritten
      memories := by
        unfold State.MemoriesWf
        rw [hcfg, hdata, hpgm]
        exact ⟨hrx.mem_wf hrxHead hrxMem, htx.mem_wf htxHead htxMem, hdataWf, hpgmWf⟩
      gray := hrx.gray hcfg hs.gray
      fgUse := h.keeps_fgUse hs.fgUse
      pc := h.keeps_pcInProgram hs.pc
      enables := h.keeps_enables hs.enables
      oneMark := h.keeps_oneMark hm
      outIsSent := htx.outIsSent hs.outIsSent
      rxOrdered := hordered }

/-- A step is one move of the unmarked state whose turn has been taken. -/
theorem moves_of_step (h : step s = .next t) : s.afterTurn.Unmarked ∧ Moves s.afterTurn s.nextTurn t := by
  obtain ⟨-, hfault, hrefused, -, hmove⟩ := step_moves h
  exact ⟨⟨by simpa using hfault, by simpa using hrefused⟩, hmove⟩

/-- Settles O53: one move keeps each clause, by what it does to the FIFO or record the clause speaks of. -/
theorem stepKeepsInvariant : Obligations.StepKeepsInvariant := by
  intro s t hs h
  obtain ⟨hm, hmove⟩ := moves_of_step h
  exact hmove.keeps_inv (State.afterTurn_inv hs) hm

/-- With the invariant the slot of a visible byte is written, and so is the slot of an unsent one. -/
theorem Moves.never_unwrittenSlot (h : Moves s u t) (hs : s.Inv) (hm : s.Unmarked) :
    t.mark.fault ≠ some .unwrittenSlot := by
  obtain ⟨hfault, -⟩ := hm
  rcases h.mark_cases with hmark | ⟨r, hmark⟩ | ⟨r, hmark, hr⟩ <;> rw [hmark]
  · simp [hfault]
  · simp [hfault]
  · have hslot : r ≠ .unwrittenSlot := fun e => by
      rcases hr e with ⟨hnone, hv⟩ | ⟨hnone, hne⟩
      · obtain ⟨b, hb⟩ := State.visible_written hs.indices hs.rxSpan hs.rxWritten hv
        simp [hnone] at hb
      · obtain ⟨b, hb⟩ := State.unsent_written hs.indices hs.txWritten hne
        simp [hnone] at hb
    simpa [hfault] using hslot

/-- Settles O54, at the state whose turn has been taken. -/
theorem noUnwrittenSlotIsRead : Obligations.NoUnwrittenSlotIsRead := by
  intro s t hs h
  obtain ⟨hm, hmove⟩ := moves_of_step h
  exact hmove.never_unwrittenSlot (State.afterTurn_inv hs) hm

/-! ### The bytes from end to end (R80, R82, R83, R325) -/

@[simp] theorem State.rxQueue_afterTurn : s.afterTurn.rxQueue = s.rxQueue :=
  State.rxQueue_congr s.afterTurn_cfg s.afterTurn_rx

@[simp] theorem State.txQueue_afterTurn : s.afterTurn.txQueue = s.txQueue :=
  State.txQueue_congr s.afterTurn_cfg s.afterTurn_tx

/-- Settles O55: what a move does to the receive FIFO, read as a queue. -/
theorem unreadBytesKeepTheirOrder : Obligations.UnreadBytesKeepTheirOrder := by
  intro s t hs h
  obtain ⟨-, hmove⟩ := moves_of_step h
  have hs' := State.afterTurn_inv hs
  have hqueue := hmove.rxMove.queue hmove.keeps_supplied.1 hs'.indices hs'.rxSpan
  simp only [State.rxQueue_afterTurn, State.afterTurn_hist, State.afterTurn_cfg, State.afterTurn_rx] at hqueue
  rcases hqueue with ⟨hq, -⟩ | hstored | ⟨k, hk, hu, -, hq⟩
  · exact .inl hq
  · exact .inr (.inl hstored)
  · exact .inr (.inr ⟨k, hu, hk, hq⟩)

/-- Settles O56: sending moves a byte from the front of the queue to the end of the line's output. -/
theorem sentBytesKeepTheirOrder : Obligations.SentBytesKeepTheirOrder := by
  intro s t hs h
  obtain ⟨-, hmove⟩ := moves_of_step h
  have hqueue := hmove.txMove.queue hmove.keeps_supplied.1 (State.afterTurn_inv hs).indices
  simp only [State.txQueue_afterTurn, State.afterTurn_line] at hqueue
  rcases hqueue with ⟨hq, hout⟩ | ⟨b, hu, hq, hout⟩ | ⟨b, hq, hout⟩
  · exact .inl (by rw [hq, hout])
  · exact .inr ⟨b, hu, by rw [hq, hout, List.append_assoc]⟩
  · exact .inl (by simp [hq, hout])

theorem exec_read_of_visible (hv : s.rx.headView ≠ s.rx.tail) (hb : Memory.read s.rx.mem s.rx.tail = some b) :
    exec .read s = .next ((s.writeRes (byteResult b)).setRxTail (ringNext s.cfg.cRx s.rx.tail)).advance := by
  simp only [exec, execRead, if_neg hv, hb]

/-- Moving the tail to the next slot takes the oldest unread byte off the queue. -/
theorem State.rxQueue_advance (hhead : s.rx.head < s.cfg.cRx) (htail : s.rx.tail < s.cfg.cRx)
    (hne : s.rx.tail ≠ s.rx.head) :
    s.rxQueue = Memory.read s.rx.mem s.rx.tail :: (s.setRxTail (ringNext s.cfg.cRx s.rx.tail)).rxQueue := by
  simp [State.rxQueue, ← ringDist_next_left htail hhead hne, ringSlots_succ htail]

theorem State.exec_read_takes_oldest (hs : s.Inv) (hv : s.rx.headView ≠ s.rx.tail) :
    ∃ b t, exec .read s = .next t ∧ t.res = b.setWidth 16 ∧ s.rxQueue = some b :: t.rxQueue := by
  obtain ⟨b, hb⟩ := State.visible_written hs.indices hs.rxSpan hs.rxWritten hv
  have hvisible := State.read_passes_visible hs.indices hv
  have hcount := State.trueCount_eq hs.indices hs.rxSpan
  obtain ⟨hhead, htail, -, -, -, -⟩ := hs.indices
  have hne : s.rx.tail ≠ s.rx.head := fun e => by
    rw [← e, ringDist_self] at hcount
    omega
  have hqueue := State.rxQueue_advance hhead htail hne
  rw [hb] at hqueue
  exact ⟨b, _, exec_read_of_visible hv hb, rfl, hqueue⟩

theorem State.exec_flush_drops_visible (hs : s.Inv) :
    ∃ t, exec .flush s = .next t ∧
      t.rxQueue = s.rxQueue.drop (ringDist s.cfg.cRx s.rx.tail s.rx.headView) := by
  have hcount := State.trueCount_eq hs.indices hs.rxSpan
  obtain ⟨hhead, htail, -, -, -, -⟩ := hs.indices
  have hqueue := State.rxQueue_setRxTail (k := ringDist s.cfg.cRx s.rx.tail s.rx.headView) hhead htail (by omega)
  rw [← State.flush_passes_visible hs.indices] at hqueue
  exact ⟨_, rfl, hqueue⟩

/-- Settles O23: READ moves the tail one slot, FLUSH to the view of the head. -/
theorem readAndFlushTakeFromTheFront : Obligations.ReadAndFlushTakeFromTheFront :=
  ⟨fun _ hs hv => State.exec_read_takes_oldest hs hv, fun _ hs => State.exec_flush_drops_visible hs⟩

theorem State.visible_le_trueCount (hs : s.Inv) :
    ringDist s.cfg.cRx s.rx.tail s.rx.headView ≤ ringDist s.cfg.cRx s.rx.tail s.rx.head := by
  rw [State.trueCount_eq hs.indices hs.rxSpan]
  exact Nat.le_add_right _ _

/-- Only FG's turn can lower the visible count; SYNC_HEAD raises it to the true count. -/
theorem RxMove.visible_le (h : RxMove s t u) (hs : s.Inv) (hu : u ≠ .agent .fg) :
    ringDist s.cfg.cRx s.rx.tail s.rx.headView ≤ ringDist s.cfg.cRx t.rx.tail t.rx.headView := by
  cases h with
  | keep _ hrx | store _ _ hrx | syncTail hrx => simp [hrx]
  | take => exact absurd rfl hu
  | syncHead hrx => rw [hrx]; exact State.visible_le_trueCount hs

/-- Settles O24: no move but FG's lowers the count, and taking the turn leaves it. -/
theorem visibleCountIsALowerBound : Obligations.VisibleCountIsALowerBound := by
  intro s hs
  refine ⟨State.visible_le_trueCount hs, fun t hu h => ?_⟩
  obtain ⟨-, hmove⟩ := moves_of_step h
  rw [hmove.keeps_supplied.1]
  simpa using hmove.rxMove.visible_le (State.afterTurn_inv hs) hu

end Sys2Proof.Machine

/-! PROOFS. Encoding (spec/30_encoding.md): a row of the opcode map and the words of the instructions it builds, from
that both decoders as inverses of `encode`, and which words the command port refuses. -/

namespace Sys2Proof

variable {w : CmdWord} {i : Instr} {a : Agent} {r : OpRow} {rows : List OpRow}

/-! ### The fields of an instruction's word (R102) -/

@[simp] theorem fieldOp_encode (i : Instr) : fieldOp (encode i) = i.code := (encode_fields i).1

@[simp] theorem fieldArg1_encode (i : Instr) : fieldArg1 (encode i) = i.arg1 := (encode_fields i).2.1

@[simp] theorem fieldArg0_encode (i : Instr) : fieldArg0 (encode i) = i.arg0 := (encode_fields i).2.2.2

/-! ### The opcode map and the encoder (R103) -/

/-- All the rows of R103. -/
def opcodeMap : List OpRow := commandRows ++ eventRows

theorem commandRows_issuer (hr : r ∈ commandRows) : r.issuer = .fg :=
  (by decide : ∀ r ∈ commandRows, r.issuer = .fg) r hr

theorem eventRows_issuer (hr : r ∈ eventRows) : r.issuer ≠ .fg :=
  (by decide : ∀ r ∈ eventRows, r.issuer ≠ .fg) r hr

theorem mem_commandRows_iff : r ∈ commandRows ↔ r ∈ opcodeMap ∧ r.issuer = .fg := by
  rw [opcodeMap, List.mem_append]
  constructor
  · exact fun hr => ⟨.inl hr, commandRows_issuer hr⟩
  · rintro ⟨hr | hr, hfg⟩
    · exact hr
    · exact absurd hfg (eventRows_issuer hr)

theorem mem_eventRows_iff : r ∈ eventRows ↔ r ∈ opcodeMap ∧ r.issuer ≠ .fg := by
  rw [opcodeMap, List.mem_append]
  constructor
  · exact fun hr => ⟨.inr hr, eventRows_issuer hr⟩
  · rintro ⟨hr | hr, hfg⟩
    · exact absurd (commandRows_issuer hr) hfg
    · exact hr

/-- What a row builds is issued by the row's agent and has the row's opcode. -/
theorem OpRow.build_issuer_code (hr : r ∈ opcodeMap) (w : CmdWord) :
    (r.build w).issuer = r.issuer ∧ (r.build w).code = r.code := by
  fin_cases hr <;> exact ⟨rfl, rfl⟩

/-- What a row builds from a word whose masked bits are 0 has the word's operand fields: an operand narrower than ARG0
has only 0 above it. -/
theorem OpRow.build_args (hr : r ∈ opcodeMap) (h1 : fieldArg1 w &&& r.form.maskArg1 = 0#8)
    (h0 : fieldArg0 w &&& r.form.maskArg0 = 0#32) :
    fieldArg1 w = (r.build w).arg1 ∧ fieldArg0 w = (r.build w).arg0 := by
  fin_cases hr <;>
    simp_all [Form.maskArg1, Form.maskArg0, Instr.arg1, Instr.arg0, and_allOnes8, and_allOnes32, operandU8,
      operandAddr16, and_above_u8, and_above_addr16, setWidth_extract_u8, setWidth_extract_addr16]

/-- A word that selects a row is the word of what the row builds from it: the row ignores no bit. -/
theorem OpRow.encode_build (hr : r ∈ opcodeMap) (h : r.selects w = true) : encode (r.build w) = w := by
  obtain ⟨hop, h1, hrsvd, h0⟩ := r.selects_iff w |>.mp h
  obtain ⟨harg1, harg0⟩ := OpRow.build_args hr h1 h0
  exact encode_of_fields _ w (hop.trans (OpRow.build_issuer_code hr w).2.symm) harg1 hrsvd harg0

/-- Every instruction has its row, which builds it again from its word. -/
theorem Instr.exists_row (i : Instr) :
    ∃ r ∈ opcodeMap, r.code = i.code ∧ r.form = i.form ∧ r.build (encode i) = i := by
  cases i <;>
    simp [opcodeMap, commandRows, eventRows, Instr.code, Instr.form, operandU8, operandAddr16, Instr.arg0, Instr.arg1,
      extract_setWidth_u8, extract_setWidth_addr16]

/-- An instruction's word keeps to the mask of its form. -/
theorem Instr.row_statement : ∀ i : Instr, Laws.Row.Statement i
  | .available => Laws.Row.available
  | .read => Laws.Row.read
  | .flush => Laws.Row.flush
  | .write b => Laws.Row.write b
  | .beginUart baud => Laws.Row.beginUart baud
  | .printByte b => Laws.Row.printByte b
  | .printString a => Laws.Row.printString a
  | .printPgmString a => Laws.Row.printPgmString a
  | .printIntBase m base => Laws.Row.printIntBase m base
  | .printInt n => Laws.Row.printInt n
  | .printFloat x => Laws.Row.printFloat x
  | .rxPush b => Laws.Row.rxPush b
  | .txDrain => Laws.Row.txDrain
  | .syncHead => Laws.Row.syncHead
  | .syncTail => Laws.Row.syncTail

/-- The opcode map is the encoder read backwards: a row that `w` selects builds `i` from it exactly when `w` is the word
of `i`, and the row is one of `i`'s issuer. -/
theorem opcodeMap_builds_iff :
    (∃ r ∈ opcodeMap, r.issuer = a ∧ r.selects w = true ∧ r.build w = i) ↔ i.issuer = a ∧ encode i = w := by
  constructor
  · rintro ⟨r, hr, hissuer, hsel, hbuild⟩
    rw [← hbuild, (OpRow.build_issuer_code hr w).1]
    exact ⟨hissuer, OpRow.encode_build hr hsel⟩
  · rintro ⟨rfl, rfl⟩
    obtain ⟨r, hr, hcode, hform, hbuild⟩ := i.exists_row
    have hsel : r.selects (encode i) = true := by
      rw [OpRow.selects, OpRow.matchBits, beq_iff_eq, hcode, hform]
      exact i.row_statement
    have hissuer := (OpRow.build_issuer_code hr (encode i)).1
    rw [hbuild] at hissuer
    exact ⟨r, hr, hissuer.symm, hsel, hbuild⟩

/-! ### Finding a row: no two rows share an opcode (R103) -/

/-- In rows with different opcodes, a search that only one opcode can pass finds the one row that passes it. -/
theorem find?_row_iff {p : OpRow → Bool} (hnodup : (rows.map OpRow.code).Nodup)
    (hp : ∀ r ∈ rows, p r = true → r.code = fieldOp w) : rows.find? p = some r ↔ r ∈ rows ∧ p r = true := by
  constructor
  · exact fun h => ⟨List.mem_of_find?_eq_some h, List.find?_some h⟩
  · rintro ⟨hr, hpr⟩
    cases h : rows.find? p with
    | none => exact absurd hpr (List.find?_eq_none.mp h r hr)
    | some r' =>
      have hr' := List.mem_of_find?_eq_some h
      have hcode : r'.code = r.code := (hp r' hr' (List.find?_some h)).trans (hp r hr hpr).symm
      rw [List.inj_on_of_nodup_map hnodup hr' hr hcode]

/-! ### The decoder of the command port (R104) -/

/-- The opcodes of the commands are 0x01 to 0x0B. -/
theorem commandRows_code_iff (c : BitVec 8) :
    (∃ r ∈ commandRows, r.code = c) ↔ 1 ≤ c.toNat ∧ c.toNat ≤ 0x0B := by
  simp only [commandRows, List.mem_cons, List.not_mem_nil, or_false, exists_eq_or_imp, exists_eq_left,
    ← BitVec.toNat_inj, BitVec.toNat_ofNat]
  omega

theorem decodeCommand_event (h : (fieldOp w).msb = true) : decodeCommand w = .error .eventOnCommandPort := by
  rw [decodeCommand, if_pos h]

theorem decodeCommand_illegal (hmsb : (fieldOp w).msb = false) (h : ¬∃ r ∈ commandRows, r.code = fieldOp w) :
    decodeCommand w = .error .illegalOpcode := by
  have hnone : commandRows.find? (fun r => r.code == fieldOp w) = none := by
    simpa using h
  simp [decodeCommand, hmsb, hnone]

/-- On a word with the opcode of a command, only the reserved bits are left to check. -/
theorem decodeCommand_row (hr : r ∈ commandRows) (hop : r.code = fieldOp w) :
    decodeCommand w = if r.selects w then .ok (r.build w) else .error .reservedNonzero := by
  have hfind : commandRows.find? (fun r => r.code == fieldOp w) = some r :=
    (find?_row_iff (by decide) fun _ _ h => beq_iff_eq.mp h).mpr ⟨hr, beq_iff_eq.mpr hop⟩
  have hmsb : (fieldOp w).msb = false := by
    obtain ⟨-, hle⟩ := (commandRows_code_iff (fieldOp w)).mp ⟨r, hr, hop⟩
    rw [BitVec.msb_eq_false_iff_two_mul_lt]
    omega
  simp [decodeCommand, hmsb, hfind]

theorem decodeCommand_eq_ok_iff : decodeCommand w = .ok i ↔ i.issuer = .fg ∧ encode i = w := by
  rw [← opcodeMap_builds_iff]
  constructor
  · intro h
    cases hmsb : (fieldOp w).msb with
    | true => simp [decodeCommand_event hmsb] at h
    | false =>
      by_cases hrow : ∃ r ∈ commandRows, r.code = fieldOp w
      · obtain ⟨r, hr, hop⟩ := hrow
        rw [decodeCommand_row hr hop] at h
        split at h
        · next hsel => exact ⟨r, (mem_commandRows_iff.mp hr).1, commandRows_issuer hr, hsel, Except.ok.inj h⟩
        · cases h
      · simp [decodeCommand_illegal hmsb hrow] at h
  · rintro ⟨r, hr, hissuer, hsel, rfl⟩
    obtain ⟨hop, -⟩ := r.selects_iff w |>.mp hsel
    rw [decodeCommand_row (mem_commandRows_iff.mpr ⟨hr, hissuer⟩) hop.symm, if_pos hsel]

/-- Settles O1: the command port's decoder inverts `encode` on FG's instructions. -/
theorem commandsDecodeFromTheirWords : Obligations.CommandsDecodeFromTheirWords :=
  fun _ hfg => decodeCommand_eq_ok_iff.mpr ⟨hfg, rfl⟩

/-- Settles O2: the same equivalence, read from the word. -/
theorem acceptedWordIsTheCommandsWord : Obligations.AcceptedWordIsTheCommandsWord :=
  fun _ _ h => decodeCommand_eq_ok_iff.mp h

/-- Which bits a command's row asks to be 0, by its opcode (R102). -/
theorem OpRow.not_selects_iff (hr : r ∈ commandRows) (hop : r.code = fieldOp w) :
    ¬r.selects w = true ↔
      fieldRsvd w ≠ 0#16 ∨
      (fieldOp w ≠ 0x09#8 ∧ fieldArg1 w ≠ 0#8) ∨
      ((fieldOp w).toNat ≤ 3 ∧ fieldArg0 w ≠ 0#32) ∨
      ((fieldOp w = 0x04#8 ∨ fieldOp w = 0x06#8) ∧ 256 ≤ (fieldArg0 w).toNat) ∨
      ((fieldOp w = 0x07#8 ∨ fieldOp w = 0x08#8) ∧ 65536 ≤ (fieldArg0 w).toNat) := by
  rw [OpRow.selects_iff, ← hop]
  fin_cases hr <;>
    simp [Form.maskArg1, Form.maskArg0, and_allOnes8, and_allOnes32, and_above_u8, and_above_addr16] <;> tauto

/-- Settles O3, by the three checks of the decoder: the top bit, the opcode, the reserved bits. -/
theorem commandPortRefusals : Obligations.CommandPortRefusals := by
  intro w
  refine ⟨fun hbit => ?_, fun hbit hop => ?_, fun hlo hhi => ?_⟩
  · exact decodeCommand_event ((fieldOp_msb w).trans hbit)
  · refine decodeCommand_illegal ((fieldOp_msb w).trans hbit) fun hrow => ?_
    have hrange := (commandRows_code_iff _).mp hrow
    omega
  · obtain ⟨r, hr, hop⟩ := (commandRows_code_iff (fieldOp w)).mpr ⟨hlo, hhi⟩
    rw [← OpRow.not_selects_iff hr hop, decodeCommand_row hr hop]
    by_cases hsel : r.selects w = true <;> simp [hsel]

/-! ### The decoder of event words (R105) -/

theorem decodeAnyEvent_eq_some_iff :
    decodeAnyEvent w = some (a, i) ↔ i.issuer = a ∧ a ≠ .fg ∧ encode i = w := by
  have hfind (r : OpRow) : eventRows.find? (fun r => r.selects w) = some r ↔ r ∈ eventRows ∧ r.selects w = true :=
    find?_row_iff (by decide) fun r _ h => ((r.selects_iff w).mp h).1.symm
  rw [and_left_comm, ← opcodeMap_builds_iff]
  constructor
  · intro h
    unfold decodeAnyEvent at h
    split at h
    · cases h
    · next r hr =>
      cases h
      obtain ⟨hmem, hsel⟩ := (hfind r).mp hr
      obtain ⟨hmap, hne⟩ := mem_eventRows_iff.mp hmem
      exact ⟨hne, r, hmap, rfl, hsel, rfl⟩
  · rintro ⟨hne, r, hr, rfl, hsel, rfl⟩
    simp [decodeAnyEvent, (hfind r).mpr ⟨mem_eventRows_iff.mpr ⟨hr, hne⟩, hsel⟩]

theorem decodeEvent_eq_some_iff : decodeEvent a w = some i ↔ decodeAnyEvent w = some (a, i) := by
  unfold decodeEvent decodeAnyEvent
  cases eventRows.find? (fun r => r.selects w) <;> simp

/-- Settles O4: an agent's trace decoder answers the event the word is of, if that agent issues it. -/
theorem traceEntriesAreEventsOfTheirIssuer : Obligations.TraceEntriesAreEventsOfTheirIssuer :=
  fun _ _ _ => decodeEvent_eq_some_iff.trans decodeAnyEvent_eq_some_iff

/-! ### The decoder of an opcode-table word -/

/-- The top bit of OP tells commands from events (R101). -/
theorem Instr.code_msb_eq_false_iff (i : Instr) : i.code.msb = false ↔ i.issuer = .fg := by
  cases i <;> simp [Instr.code, Instr.issuer, BitVec.msb_eq_decide]

theorem decodeWord_encode (i : Instr) : decodeWord (encode i) = some i := by
  unfold decodeWord
  by_cases hfg : i.issuer = .fg
  · have hok : decodeCommand (encode i) = .ok i := decodeCommand_eq_ok_iff.mpr ⟨hfg, rfl⟩
    simp [i.code_msb_eq_false_iff.mpr hfg, hok]
  · have hany : decodeAnyEvent (encode i) = some (i.issuer, i) := decodeAnyEvent_eq_some_iff.mpr ⟨rfl, hfg, rfl⟩
    simp [mt i.code_msb_eq_false_iff.mp hfg, hany]

end Sys2Proof

namespace Sys2Proof.Machine

/-! ### The assembler's lines (R108, R110) -/

/-- Settles O6: a line's word is `encode` of the instruction it spells, and both decoders invert `encode`. -/
theorem assembledLinesDecodeBack : Obligations.AssembledLinesDecodeBack := by
  intro l w h
  obtain ⟨i, hi, rfl⟩ := Option.map_eq_some_iff.mp h
  exact ⟨i, hi, decodeWord_encode i, fun hfg => decodeCommand_eq_ok_iff.mpr ⟨hfg, rfl⟩⟩

/-- Settles O5, by evaluating the assembler and the decoders on the ten rows. -/
theorem workedEncodings : Obligations.WorkedEncodings := by
  unfold Obligations.WorkedEncodings
  decide

end Sys2Proof.Machine

/-! PROOFS. The receive FIFO's commands and its event (spec/40_rx_async_fifo.md): one equation for each branch of RX_PUSH,
AVAILABLE, READ and FLUSH, and what the invariant says of the distances a FLUSH leaves. -/

namespace Sys2Proof.Machine

variable {s : State} {b : Byte}

/-! ### RX_PUSH (R130) -/

theorem State.rxEnabled_iff : s.rxEnabled = true ↔ s.ctrl.rxen = true ∧ s.ctrl.rxcie = true := by
  simp [State.rxEnabled]

theorem exec_rxPush_of_room (he : s.rxEnabled = true) (hb : s.line.inp.head? = some b)
    (hroom : ringNext s.cfg.cRx s.rx.head ≠ s.rx.tailView) :
    exec (.rxPush b) s = .next ((s.takeOffered.storeRx b).record (.rxAccepted b)) := by
  simp [exec, execRxPush, he, hb, hroom]

theorem exec_rxPush_of_full (he : s.rxEnabled = true) (hb : s.line.inp.head? = some b)
    (hfull : ringNext s.cfg.cRx s.rx.head = s.rx.tailView) :
    exec (.rxPush b) s = .next (s.takeOffered.record (.rxDropped b)) := by
  simp [exec, execRxPush, he, hb, hfull]

/-- Settles O18: RX_PUSH stores where the next head is not the tail's view, and a store is read back at its own slot only. -/
theorem rxPushEffect : Obligations.RxPushEffect := by
  intro s b
  refine ⟨fun hen hie hb hroom => ?_, fun hen hie hb hfull => ?_⟩
  · exact ⟨_, exec_rxPush_of_room (State.rxEnabled_iff.mpr ⟨hen, hie⟩) hb hroom, Memory.read_write_same,
      fun _ ha => Memory.read_write_other ha, rfl⟩
  · exact exec_rxPush_of_full (State.rxEnabled_iff.mpr ⟨hen, hie⟩) hb hfull

/-! ### AVAILABLE (R131) -/

theorem exec_available :
    exec .available s =
      .next (s.writeRes (BitVec.ofNat 16 (ringDist s.cfg.cRx s.rx.tail s.rx.headView))).advance := rfl

/-- No distance in a receive FIFO is too long for the 16 bits of `RES`. -/
theorem Config.toNat_ofNat_ringDist {c : Config} (hv : c.valid = true) (i j : Nat) :
    (BitVec.ofNat 16 (ringDist c.cRx i j)).toNat = ringDist c.cRx i j := by
  simp only [Config.valid, Config.rxRange, Bool.and_eq_true, decide_eq_true_eq] at hv
  have hlt : ringDist c.cRx i j < c.cRx := ringDist_lt (by omega)
  rw [BitVec.toNat_ofNat]
  exact Nat.mod_eq_of_lt (by omega)

/-- Settles O19: the visible count loses nothing in 16 bits, and the invariant bounds it by the true count. -/
theorem availableReportsTheVisibleCount : Obligations.AvailableReportsTheVisibleCount := by
  intro s hv
  obtain ⟨hcap, -⟩ := Config.capacity_ge_two hv
  have hcount := Config.toNat_ofNat_ringDist hv s.rx.tail s.rx.headView
  refine ⟨_, exec_available, hcount, ?_, fun hview => ?_, fun hs => ?_, rfl⟩
  · exact hcount.trans_lt (ringDist_lt (by omega))
  · exact hcount.trans (by rw [hview])
  · exact hcount.trans_le (State.visible_le_trueCount hs)

/-! ### READ (R132) -/

theorem exec_read_of_none_visible (hv : s.rx.headView = s.rx.tail) :
    exec .read s = .next (s.writeRes noData).advance := by
  simp only [exec, execRead, if_pos hv]

theorem exec_read_of_unwritten (hv : s.rx.headView ≠ s.rx.tail) (hb : Memory.read s.rx.mem s.rx.tail = none) :
    exec .read s = .next (s.raiseFault .unwrittenSlot (encode .read)) := by
  simp only [exec, execRead, if_neg hv, hb]

/-- The first fault of a run sets the mark to its own reason (R48). -/
theorem State.raiseFault_of_no_fault (r : Fault) (w : CmdWord) (h : s.mark.fault = none) :
    s.raiseFault r w =
      { s with mark := { s.mark with fault := some r }, hist := s.hist ++ [.fault r w s.fg.pc] } := by
  simp [State.raiseFault, h]

/-- A byte's result is below 256, the sentinel is not (D8). -/
theorem byteResult_ne_noData (b : Byte) : byteResult b ≠ noData := by
  intro h
  have hlt : (byteResult b).toNat < 256 := by
    rw [byteResult, BitVec.toNat_setWidth]
    omega
  rw [h] at hlt
  exact absurd hlt (by decide)

/-- Settles O20: the branches of READ, and a byte is never the sentinel. -/
theorem readEffect : Obligations.ReadEffect := by
  refine ⟨fun s => ⟨fun hv => ?_, fun b hv hb => ?_, fun hv hb hf => ?_⟩, byteResult_ne_noData⟩
  · exact exec_read_of_none_visible hv
  · exact exec_read_of_visible hv hb
  · rw [exec_read_of_unwritten hv hb, State.raiseFault_of_no_fault _ _ hf]

/-! ### FLUSH (R133, R134) -/

theorem exec_flush : exec .flush s = .next (s.setRxTail s.rx.headView).advance := rfl

/-- Settles O21: FLUSH is a write of the tail, and the advance writes `fg.pc` only. -/
theorem flushCopiesTheHeadView : Obligations.FlushCopiesTheHeadView := fun _ => exec_flush

/-- The bytes not yet visible leave room for one more (R77). -/
theorem State.invisible_le_room (h : s.RxSpan) :
    ringDist s.cfg.cRx s.rx.headView s.rx.head ≤ s.cfg.cRx - 1 := by
  unfold State.RxSpan at h
  omega

/-- Settles O22: FLUSH moves the tail alone, which the drop test does not read; SYNC_TAIL then shows the drop test the
copied head value, and behind it stand only the bytes that were not visible. -/
theorem flushRaceIsSafe : Obligations.FlushRaceIsSafe := by
  intro s t u hs hflush hsync
  rw [exec_flush] at hflush
  cases hflush
  cases hsync
  exact ⟨ringDist_self, rfl, rfl, rfl, State.invisible_le_room hs.rxSpan⟩

end Sys2Proof.Machine

/-! PROOFS. The Gray pointer code and the synchronisers (spec/41_gray_counter.md): the numbers a capacity's indices stand
for, the decoder as the encoder's inverse, the bit in which two codes differ, and what a step does to the registers. -/

namespace Sys2Proof.Machine

/-! ### The numbers that are coded (R160) -/

/-- The smallest power of two that holds a capacity in R5's range has at most the 16 bits of a `Code`. -/
theorem pointerWidth_range {c : Nat} (hmin : 2 ≤ c) (hmax : c ≤ 65536) :
    pointerWidth c ≤ 16 ∧ c ≤ 2 ^ pointerWidth c := by
  have hwidth : Nat.log2 (c - 1) < 16 := (Nat.log2_lt (by omega)).mpr (by omega)
  have hfits : c - 1 < 2 ^ pointerWidth c := Nat.lt_log2_self
  exact ⟨hwidth, by omega⟩

/-- An even capacity's indices are coded in the middle of the numbers of `W` bits: as many are left out below as above. -/
theorem two_mul_grayOffset_add {c : Nat} (heven : c % 2 = 0) (hfits : c ≤ 2 ^ pointerWidth c) :
    2 * grayOffset c + c = 2 ^ pointerWidth c := by
  have hpow : 2 ^ pointerWidth c = 2 ^ Nat.log2 (c - 1) * 2 := pow_succ 2 _
  unfold grayOffset
  omega

theorem add_grayOffset_lt {c i : Nat} (heven : c % 2 = 0) (hfits : c ≤ 2 ^ pointerWidth c) (hi : i < c) :
    i + grayOffset c < 2 ^ pointerWidth c := by
  have hspan := two_mul_grayOffset_add heven hfits
  omega

/-! ### Decoding (R162) -/

/-- The decoder's sum telescopes on a code: each shift cancels half of the one before it. -/
theorem grayFold_grayOf (x : Code) (n : Nat) : grayFold (grayOf x) n = x ^^^ (x >>> n) := by
  induction n with
  | zero => simp [grayFold]
  | succ n ih =>
    have hshift : grayOf x >>> n = (x >>> n) ^^^ (x >>> (n + 1)) := by
      rw [grayOf, BitVec.ushiftRight_xor_distrib, ← BitVec.shiftRight_add, Nat.add_comm]
    rw [grayFold, ih, hshift, BitVec.xor_assoc, ← BitVec.xor_assoc (x >>> n), BitVec.xor_self, BitVec.zero_xor]

theorem toNat_grayFold_grayOf {m n : Nat} (hn : n ≤ 16) (hm : m < 2 ^ n) :
    (grayFold (grayOf (BitVec.ofNat 16 m)) n).toNat = m := by
  have hm16 : m < 2 ^ 16 := hm.trans_le (Nat.pow_le_pow_right (by decide) hn)
  rw [grayFold_grayOf, BitVec.toNat_xor, BitVec.toNat_ushiftRight, BitVec.toNat_ofNat, Nat.mod_eq_of_lt hm16,
    Nat.shiftRight_eq_div_pow, Nat.div_eq_of_lt hm, Nat.xor_zero]

/-- Settles O28: the decoder's sum gives back the coded number, which is the index above the offset. -/
theorem grayDecodeInvertsGrayCode : Obligations.GrayDecodeInvertsGrayCode := by
  intro c i heven hmin hmax hi
  obtain ⟨hwidth, hfits⟩ := pointerWidth_range hmin hmax
  rw [grayDecode, grayCode, toNat_grayFold_grayOf hwidth (add_grayOffset_lt heven hfits hi), Nat.add_sub_cancel]

/-! ### The bit in which two codes differ (R161) -/

theorem xor_eq_of_odd_add {x y : Nat} (h : (x + y) % 2 = 1) : x ^^^ y = 2 * (x / 2 ^^^ y / 2) + 1 := by
  have hhigh : (x ^^^ y) / 2 = x / 2 ^^^ y / 2 := Nat.xor_div_two
  have hlow : (x ^^^ y) % 2 = (x + y) % 2 := Nat.xor_mod_two_eq
  omega

/-- A number and the next one differ in their low `k + 1` bits, `k` the number's count of trailing ones. -/
theorem xor_succ_eq_mask {n x : Nat} (hx : x + 1 < 2 ^ n) : ∃ k < n, x ^^^ (x + 1) = 2 ^ (k + 1) - 1 := by
  induction n generalizing x with
  | zero => omega
  | succ n ih =>
    have hxor := xor_eq_of_odd_add (x := x) (y := x + 1) (by omega)
    rcases Nat.mod_two_eq_zero_or_one x with heven | hodd
    · refine ⟨0, Nat.succ_pos n, ?_⟩
      rw [hxor, show (x + 1) / 2 = x / 2 by omega, Nat.xor_self]
      rfl
    · obtain ⟨k, hk, hmask⟩ := ih (x := x / 2) (by omega)
      have hpos : 0 < 2 ^ (k + 1) := Nat.two_pow_pos _
      refine ⟨k + 1, Nat.succ_lt_succ hk, ?_⟩
      rw [hxor, show (x + 1) / 2 = x / 2 + 1 by omega, hmask]
      omega

/-- Two numbers that mirror each other among those of `n` bits differ in every bit. -/
theorem xor_mirror_eq_mask {n x y : Nat} (h : x + y + 1 = 2 ^ n) : x ^^^ y = 2 ^ n - 1 := by
  induction n generalizing x y with
  | zero =>
    obtain ⟨rfl, rfl⟩ : x = 0 ∧ y = 0 := by omega
    rfl
  | succ n ih =>
    rw [xor_eq_of_odd_add (by omega), ih (by omega)]
    omega

/-- The reflected code is linear over XOR. -/
theorem grayOf_xor (x y : Code) : grayOf x ^^^ grayOf y = grayOf (x ^^^ y) := by
  unfold grayOf
  rw [BitVec.ushiftRight_xor_distrib]
  ac_rfl

theorem grayOf_mask {k : Nat} (hk : k < 16) : grayOf (BitVec.ofNat 16 (2 ^ (k + 1) - 1)) = BitVec.twoPow 16 k :=
  (by decide : ∀ k < 16, grayOf (BitVec.ofNat 16 (2 ^ (k + 1) - 1)) = BitVec.twoPow 16 k) k hk

/-- Two indices whose numbers differ in their low `k + 1` bits have codes that differ in bit `k` alone. -/
theorem grayCode_xor_of_mask {c i j k : Nat} (hk : k < 16)
    (h : (i + grayOffset c) ^^^ (j + grayOffset c) = 2 ^ (k + 1) - 1) :
    grayCode c i ^^^ grayCode c j = BitVec.twoPow 16 k := by
  rw [grayCode, grayCode, grayOf_xor, ← BitVec.ofNat_xor, h, grayOf_mask hk]

theorem grayCode_xor_succ {c i : Nat} (hwidth : pointerWidth c ≤ 16) (hi : i + 1 + grayOffset c < 2 ^ pointerWidth c) :
    ∃ k < pointerWidth c, grayCode c i ^^^ grayCode c (i + 1) = BitVec.twoPow 16 k := by
  rw [Nat.add_right_comm] at hi
  obtain ⟨k, hk, hmask⟩ := xor_succ_eq_mask hi
  exact ⟨k, hk, grayCode_xor_of_mask (hk.trans_le hwidth) (by rw [Nat.add_right_comm i 1, hmask])⟩

/-- The last and the first index stand for numbers that mirror each other. -/
theorem grayCode_xor_wrap {c : Nat} (hmin : 2 ≤ c) (hwidth : pointerWidth c ≤ 16)
    (hspan : 2 * grayOffset c + c = 2 ^ pointerWidth c) :
    grayCode c (c - 1) ^^^ grayCode c 0 = BitVec.twoPow 16 (pointerWidth c - 1) := by
  have hsucc : pointerWidth c - 1 + 1 = pointerWidth c := rfl
  refine grayCode_xor_of_mask (by omega) ?_
  rw [hsucc]
  exact xor_mirror_eq_mask (by omega)

/-- Settles O27: a code has a decoder, and the numbers of neighbours differ in a run of low bits, which the code makes one. -/
theorem neighbouringCodesDifferInOneBit : Obligations.NeighbouringCodesDifferInOneBit := by
  intro c heven hmin hmax
  obtain ⟨hwidth, hfits⟩ := pointerWidth_range hmin hmax
  refine ⟨fun i j hi hj hcode => ?_, fun i hi => ?_, ?_⟩
  · rw [← grayDecodeInvertsGrayCode c i heven hmin hmax hi, hcode, grayDecodeInvertsGrayCode c j heven hmin hmax hj]
  · exact grayCode_xor_succ hwidth (add_grayOffset_lt heven hfits hi)
  · exact grayCode_xor_wrap hmin hwidth (two_mul_grayOffset_add heven hfits)

/-! ### The Gray registers and the synchronisers (R163 to R165) -/

/-- Settles O29: the turn taken leaves the registers, and its one move loads a code wherever it writes an index or a view. -/
theorem stepKeepsGrayRegisters : Obligations.StepKeepsGrayRegisters := by
  intro s t hgray h
  obtain ⟨-, hmove⟩ := moves_of_step h
  have hgray' : s.afterTurn.GrayHeld := by simpa [State.GrayHeld] using hgray
  exact hmove.rxMove.gray hmove.keeps_supplied.1 hgray'

theorem exec_syncHead (s : State) : exec .syncHead s = .next s.syncHeadView := rfl

theorem exec_syncTail (s : State) : exec .syncTail s = .next s.syncTailView := rfl

/-- Settles O26: each event is the copy of its index into the view, with the flip-flops of its chain. -/
theorem synchronisersCopyTheIndices : Obligations.SynchronisersCopyTheIndices :=
  fun s => ⟨exec_syncHead s, exec_syncTail s⟩

end Sys2Proof.Machine

/-! PROOFS. The transmit FIFO (spec/42_tx_sync_fifo.md): one equation for each branch of WRITE and TX_DRAIN, what each does
to the queue of unsent bytes, and from that back-pressure and the emission of every stored byte. -/

namespace Sys2Proof.Machine

variable {s t v : State} {b : Byte} {bs cs : List Byte} {q : List (Option Byte)}

/-! ### The armed interrupt (R187) -/

/-- Settles O52: reset is empty, and no move on the transmit FIFO disarms a non-empty one. -/
theorem nonEmptyTransmitFifoIsArmed : Obligations.NonEmptyTransmitFifoIsArmed := by
  refine ⟨fun _ _ _ _ _ _ _ _ hne => absurd rfl hne, fun s t ha h => ?_⟩
  obtain ⟨-, hmove⟩ := moves_of_step h
  exact hmove.txMove.txArmed (by simpa [State.TxArmed] using ha)

/-! ### WRITE and PRINT_BYTE (R180, R181, R210) -/

theorem exec_eq_sendByte {i : Instr} (hi : i = .write b ∨ i = .printByte b) : exec i s = .next (s.sendByte b) := by
  rcases hi with rfl | rfl <;> rfl

theorem exec_write (b : Byte) (s : State) : exec (.write b) s = .next (s.sendByte b) := rfl

theorem State.sendByte_of_enq (h : s.enq b = some t) : s.sendByte b = t.advance := by
  simp only [State.sendByte, h]

/-- TXIE after ENQ, as R181 writes it. -/
theorem State.txie_or_empty :
    (s.ctrl.txie || decide (s.tx.head = s.tx.tail)) = if s.tx.head = s.tx.tail then true else s.ctrl.txie := by
  split <;> simp [*]

/-- Settles O30: one ENQ, which stores where the next head is not the tail, and a store is read back at its slot only. -/
theorem writeAndPrintByteEnqueue : Obligations.WriteAndPrintByteEnqueue := by
  intro s b i hi
  rw [exec_eq_sendByte hi]
  refine ⟨fun hroom => ⟨_, rfl, ?_⟩, fun hfull => by rw [State.sendByte_of_full hfull]⟩
  rw [State.sendByte_of_room hroom, State.txie_or_empty]
  exact ⟨Memory.read_write_same, fun _ ha => Memory.read_write_other ha, rfl⟩

/-! ### TX_DRAIN (R184) -/

theorem State.txEnabled_iff :
    s.txEnabled = true ↔ s.ctrl.txen = true ∧ s.ctrl.txie = true ∧ s.line.ready = true := by
  simp [State.txEnabled, and_assoc]

theorem exec_txDrain_of_empty (he : s.txEnabled = true) (hempty : s.tx.head = s.tx.tail) :
    exec .txDrain s = .next (s.setTxie false) := by
  simp only [exec, execTxDrain, if_pos he, if_pos hempty]

theorem exec_txDrain_of_written (he : s.txEnabled = true) (hne : s.tx.head ≠ s.tx.tail)
    (hb : Memory.read s.tx.mem s.tx.tail = some b) :
    exec .txDrain s = .next ((s.advanceTxTail.emit b).record (.txSent b)) := by
  simp only [exec, execTxDrain, if_pos he, if_neg hne, hb]

theorem exec_txDrain_of_unwritten (he : s.txEnabled = true) (hne : s.tx.head ≠ s.tx.tail)
    (hb : Memory.read s.tx.mem s.tx.tail = none) :
    exec .txDrain s = .next (s.raiseFault .unwrittenSlot (encode .txDrain)) := by
  simp only [exec, execTxDrain, if_pos he, if_neg hne, hb]

/-- Settles O31: the branches of TX_DRAIN, each where its enables are set. -/
theorem txDrainEffect : Obligations.TxDrainEffect := by
  refine fun s => ⟨fun b htx hie hl hne hb => ?_, fun htx hie hl hempty => ?_, fun htx hie hl hne hb hf => ?_⟩
  · exact exec_txDrain_of_written (State.txEnabled_iff.mpr ⟨htx, hie, hl⟩) hne hb
  · exact exec_txDrain_of_empty (State.txEnabled_iff.mpr ⟨htx, hie, hl⟩) hempty
  · rw [exec_txDrain_of_unwritten (State.txEnabled_iff.mpr ⟨htx, hie, hl⟩) hne hb, State.raiseFault_of_no_fault _ _ hf]
    exact ⟨_, rfl⟩

/-! ### The transmit path's states (R185) -/

theorem ringNext_ne_self {c a : Nat} (hc : 2 ≤ c) (ha : a < c) : ringNext c a ≠ a := by
  rw [ringNext_eq ha]
  split <;> omega

/-- A full FIFO is not empty, and a store leaves the head off the tail. -/
theorem State.sendByte_txActive (hcap : 2 ≤ s.cfg.cTx) (hhead : s.tx.head < s.cfg.cTx) : (s.sendByte b).TxActive := by
  by_cases hfull : ringNext s.cfg.cTx s.tx.head = s.tx.tail
  · rw [State.sendByte_of_full hfull, State.TxActive, ← hfull]
    exact (ringNext_ne_self hcap hhead).symm
  · rw [State.sendByte_of_room hfull]
    exact hfull

theorem State.txMove_of_enq (h : s.enq b = some t) : TxMove s t.advance (.agent .fg) := by
  have hline := State.enq_line h
  have hhist := State.enq_hist h
  exact .enq b t h rfl rfl (congrArg Line.out hline) hhist

theorem State.sendByte_txArmed (ha : s.TxArmed) : (s.sendByte b).TxArmed := by
  cases he : s.enq b with
  | none => rwa [State.sendByte_of_full (State.enq_eq_none_iff.mp he)]
  | some t =>
    rw [State.sendByte_of_enq he]
    exact (State.txMove_of_enq he).txArmed ha

/-- Sending one byte does not write TXIE, so an armed FIFO that becomes empty is ACTIVE-empty. -/
theorem TxMove.drain_active (h : TxMove s t (.agent .txc)) (ha : s.TxArmed) (hne : s.TxActive) :
    t.TxActive ∨ t.TxActiveEmpty := by
  cases h with
  | keep _ htx => exact .inl (by rw [State.TxActive, htx]; exact hne)
  | disarm hempty => exact absurd hempty hne
  | send b _ _ _ htxie =>
    by_cases hempty : t.tx.head = t.tx.tail
    · exact .inr ⟨hempty, htxie.trans (ha hne)⟩
    · exact .inl hempty

/-- Settles O33: the rows of R185's table, each by the branch of its event. -/
theorem transmitPathStates : Obligations.TransmitPathStates := by
  intro s t b hs
  refine ⟨hs.txArmed, fun hwrite => ?_, fun hidle hdrain => ?_, fun hactive htx hl hdrain => ?_, fun hne hdrain => ?_⟩
  · obtain ⟨-, hcap⟩ := Config.capacity_ge_two hs.valid
    obtain ⟨-, -, -, -, hhead, -⟩ := hs.indices
    rw [exec_write] at hwrite
    cases hwrite
    have hactive : (s.sendByte b).TxActive := State.sendByte_txActive hcap hhead
    exact ⟨hactive, State.sendByte_txArmed hs.txArmed hactive⟩
  · rw [exec_txDrain_of_not_enabled (by simp [State.txEnabled, hidle.2])] at hdrain
    cases hdrain
    rfl
  · obtain ⟨hempty, hie⟩ := hactive
    rw [exec_txDrain_of_empty (State.txEnabled_iff.mpr ⟨htx, hie, hl⟩) hempty] at hdrain
    cases hdrain
    exact ⟨hempty, rfl⟩
  · exact (moves_txDrain hdrain).txMove.drain_active hs.txArmed hne

/-! ### The FIFO as a queue (R188) -/

theorem State.txQueue_length : s.txQueue.length = ringDist s.cfg.cTx s.tx.tail s.tx.head := ringSlots_length

theorem State.txQueue_eq_nil_iff (hi : s.IndicesInRange) : s.txQueue = [] ↔ s.tx.head = s.tx.tail := by
  obtain ⟨-, -, -, -, hhead, htail⟩ := hi
  rw [← List.length_eq_zero_iff, State.txQueue_length, ringDist_eq_zero htail hhead, eq_comm]

theorem State.txActive_of_queue {o : Option Byte} (hi : s.IndicesInRange) (hq : s.txQueue = o :: q) : s.TxActive := by
  intro hempty
  rw [(State.txQueue_eq_nil_iff hi).mpr hempty] at hq
  cases hq

/-- The FIFO is full when it holds as many bytes as it has slots, less one (R181, R189). -/
theorem State.full_iff_txQueue_length (hi : s.IndicesInRange) :
    ringNext s.cfg.cTx s.tx.head = s.tx.tail ↔ s.txQueue.length = s.cfg.cTx - 1 := by
  obtain ⟨-, -, -, -, hhead, htail⟩ := hi
  rw [State.txQueue_length, ringNext_eq_iff htail hhead]

theorem exec_write_of_full_queue (hi : s.IndicesInRange) (hlen : s.txQueue.length = s.cfg.cTx - 1) :
    exec (.write b) s = .next s := by
  rw [exec_write, State.sendByte_of_full ((State.full_iff_txQueue_length hi).mpr hlen)]

/-- TX_DRAIN sends the first of the unsent bytes, and leaves the others. -/
theorem exec_txDrain_of_queue (he : s.txEnabled = true) (hi : s.IndicesInRange) (hq : s.txQueue = some b :: q) :
    exec .txDrain s = .next ((s.advanceTxTail.emit b).record (.txSent b)) ∧
      ((s.advanceTxTail.emit b).record (.txSent b)).txQueue = q := by
  have hne := State.txActive_of_queue hi hq
  obtain ⟨-, -, -, -, hhead, htail⟩ := hi
  have hfront := State.txQueue_advance hhead htail hne
  rw [hq, List.cons.injEq] at hfront
  obtain ⟨hb, hrest⟩ := hfront
  exact ⟨exec_txDrain_of_written he hne hb.symm, hrest.symm⟩

/-! ### WRITEs in a row, and back-pressure (R189) -/

/-- What WRITEs that all complete do from `s` to `t`: their bytes `bs` join the queue, `fg.pc` counts them, the line and
the transmitter's enable are not written, and the next WRITE or TX_DRAIN finds the indices in range and TXIE armed. -/
structure Stored (s t : State) (bs : List Byte) : Prop where
  queue : t.txQueue = s.txQueue ++ bs.map some
  pc : t.fg.pc = s.fg.pc + bs.length
  cfg : t.cfg = s.cfg
  line : t.line = s.line
  txen : t.ctrl.txen = s.ctrl.txen
  indices : t.IndicesInRange
  armed : t.TxArmed

theorem Stored.trans (h : Stored s t bs) (h' : Stored t v cs) : Stored s v (bs ++ cs) where
  queue := by simp [h'.queue, h.queue]
  pc := by simp [h'.pc, h.pc, Nat.add_assoc]
  cfg := h'.cfg.trans h.cfg
  line := h'.line.trans h.line
  txen := h'.txen.trans h.txen
  indices := h'.indices
  armed := h'.armed

theorem Stored.queue_length (h : Stored s t bs) : t.txQueue.length = s.txQueue.length + bs.length := by
  simp [h.queue]

/-- A WRITE completes where the queue is shorter than the usable capacity. -/
theorem exec_write_stored (b : Byte) (hi : s.IndicesInRange) (ha : s.TxArmed)
    (hroom : s.txQueue.length < s.cfg.cTx - 1) : ∃ t, exec (.write b) s = .next t ∧ Stored s t [b] := by
  rw [State.txQueue_length] at hroom
  obtain ⟨hrxHead, hrxTail, hview, htview, hhead, htail⟩ := hi
  obtain ⟨e, he, hhead', -⟩ := State.enq_of_txRoom b hhead htail (Nat.sub_pos_of_lt hroom)
  have hqueue := State.txQueue_enq hhead htail he
  have harmed := (State.txMove_of_enq he).txArmed ha
  refine ⟨e.advance, by rw [exec_write, State.sendByte_of_enq he], ?_⟩
  obtain ⟨-, rfl⟩ := State.enq_eq_some_iff.mp he
  exact
    { queue := hqueue
      pc := rfl
      cfg := rfl
      line := rfl
      txen := rfl
      indices := ⟨hrxHead, hrxTail, hview, htview, hhead', htail⟩
      armed := harmed }

theorem runExec_cons_of_next {i : Instr} {is : List Instr} (h : exec i s = .next t) :
    runExec (i :: is) s = runExec is t := by
  simp only [runExec, h]

/-- With room for them all, WRITEs in a row all complete. -/
theorem runExec_writes_stored (bs : List Byte) (hi : s.IndicesInRange) (ha : s.TxArmed)
    (hroom : s.txQueue.length + bs.length ≤ s.cfg.cTx - 1) :
    ∃ t, runExec (bs.map .write) s = .next t ∧ Stored s t bs := by
  induction bs generalizing s with
  | nil => exact ⟨s, rfl, by simp, rfl, rfl, rfl, rfl, hi, ha⟩
  | cons b bs ih =>
    rw [List.length_cons] at hroom
    obtain ⟨t, hwrite, hst⟩ := exec_write_stored b hi ha (by omega)
    have hlen : t.txQueue.length = s.txQueue.length + 1 := hst.queue_length
    obtain ⟨v, hrun, htv⟩ := ih hst.indices hst.armed (by rw [hlen, hst.cfg]; omega)
    exact ⟨v, (runExec_cons_of_next hwrite).trans hrun, hst.trans htv⟩

/-- Settles O34: the WRITEs fill the queue, TX_DRAIN takes its first byte off, and the held WRITE fills it again. -/
theorem backPressureReleasesOneWrite : Obligations.BackPressureReleasesOneWrite := by
  intro s bs b c hv hi hempty hlen htxen hready
  obtain ⟨-, hcap⟩ := Config.capacity_ge_two hv
  have hnil : s.txQueue = [] := (State.txQueue_eq_nil_iff hi).mpr hempty
  obtain ⟨t, hrun, hst⟩ := runExec_writes_stored bs hi (fun hne => absurd hempty hne) (by simp [hnil, hlen])
  have hqueue : t.txQueue = bs.map some := by rw [hst.queue, hnil, List.nil_append]
  obtain ⟨first, rest, rfl⟩ := List.exists_cons_of_length_pos (l := bs) (by omega)
  have hie := hst.armed (State.txActive_of_queue hst.indices hqueue)
  have henabled : t.txEnabled = true :=
    State.txEnabled_iff.mpr ⟨hst.txen.trans htxen, hie, by rw [hst.line, hready]⟩
  obtain ⟨hdrain, hrest⟩ := exec_txDrain_of_queue henabled hst.indices hqueue
  have hmove := moves_txDrain hdrain
  rw [List.length_cons] at hlen
  obtain ⟨v, hwrite, huv⟩ := exec_write_stored b (hmove.keeps_indices hst.indices) (hmove.txMove.txArmed hst.armed)
    (by simp only [hrest, List.length_map, State.record_cfg, State.emit_cfg, State.advanceTxTail_cfg, hst.cfg]; omega)
  refine ⟨t, _, v, hrun, ?_, exec_write_of_full_queue hst.indices ?_, hdrain, ?_, hwrite, huv.pc,
    exec_write_of_full_queue huv.indices ?_⟩
  · rw [hst.pc, List.length_cons, hlen]
  · rw [hqueue, List.length_map, List.length_cons, hlen, hst.cfg]
  · simp [hst.line]
  · have hcfg : v.cfg = s.cfg := huv.cfg.trans hst.cfg
    rw [huv.queue_length, hrest, List.length_map, hcfg]
    exact hlen

/-! ### Every stored byte is emitted (R186) -/

theorem core_run_succ_of_step {n : Nat} (h : step s = .next t) :
    Sys2Proof.core.run (n + 1) s = Sys2Proof.core.run n t := by
  have hstep : Sys2Proof.core.step s = .next t := h
  simp only [Host.Core.run]
  rw [hstep]

theorem State.nextTurn_of_sched {u : Turn} {us : List Turn} (h : s.sched = u :: us) : s.nextTurn = u := by
  simp only [State.nextTurn, h]

theorem State.afterTurn_sched_of_sched {u : Turn} {us : List Turn} (h : s.sched = u :: us) :
    s.afterTurn.sched = us := by
  simp only [State.afterTurn, h]

/-- A turn of TXC sends the first of the unsent bytes, for the invariant has TXIE set while there is one. -/
theorem step_txc_of_queue (hs : s.Inv) (hm : s.Unmarked) (htxen : s.ctrl.txen = true) (hready : s.line.ready = true)
    (hu : s.nextTurn = .agent .txc) (hq : s.txQueue = some b :: q) :
    step s = .next ((s.afterTurn.advanceTxTail.emit b).record (.txSent b)) ∧
      ((s.afterTurn.advanceTxTail.emit b).record (.txSent b)).txQueue = q := by
  have hie := hs.txArmed (State.txActive_of_queue hs.indices hq)
  have henabled : s.txEnabled = true := State.txEnabled_iff.mpr ⟨htxen, hie, hready⟩
  have henabled' : s.afterTurn.txEnabled = true := (State.enabled_afterTurn (a := .txc)).trans henabled
  rw [step_eq_agentStep hs.valid hm hu henabled]
  exact exec_txDrain_of_queue henabled' (State.afterTurn_inv hs).indices (s.txQueue_afterTurn.trans hq)

/-- As many turns of TXC as there are unsent bytes send them all. -/
theorem run_txc_turns {us : List Turn} (q : List (Option Byte)) (hs : s.Inv) (hm : s.Unmarked)
    (htxen : s.ctrl.txen = true) (hready : s.line.ready = true) (hq : s.txQueue = q)
    (hsched : s.sched = List.replicate q.length (.agent .txc) ++ us) :
    ∃ t, Sys2Proof.core.run q.length s = .next t ∧ t.tx.head = t.tx.tail ∧
      t.line.out.map some = s.line.out.map some ++ q := by
  induction q generalizing s with
  | nil => exact ⟨s, rfl, (State.txQueue_eq_nil_iff hs.indices).mp hq, by simp⟩
  | cons o q ih =>
    have hwritten := State.txWritten_iff.mp hs.txWritten o (by simp [hq])
    obtain ⟨b, rfl⟩ := Option.isSome_iff_exists.mp hwritten
    rw [List.length_cons, List.replicate_succ, List.cons_append] at hsched
    obtain ⟨hstep, hrest⟩ := step_txc_of_queue hs hm htxen hready (State.nextTurn_of_sched hsched) hq
    obtain ⟨t, hrun, hempty, hout⟩ := ih (stepKeepsInvariant _ _ hs hstep) (by simpa [State.Unmarked] using hm)
      (by simpa using htxen) (by simpa using hready) hrest (by simpa using State.afterTurn_sched_of_sched hsched)
    exact ⟨t, (core_run_succ_of_step hstep).trans hrun, hempty, by simp [hout]⟩

/-- Settles O35: the number of turns is the length of the queue. -/
theorem everyStoredByteIsEmitted : Obligations.EveryStoredByteIsEmitted := by
  intro s n us hs hm htxen hready hn hsched
  rw [← State.txQueue_length] at hn
  subst hn
  exact run_txc_turns s.txQueue hs hm htxen hready rfl hsched

end Sys2Proof.Machine

/-! PROOFS. BEGIN (spec/43_uart_begin.md): the bauds that have a divisor, the enables as `CTRL`'s word, and one equation for
each branch of BEGIN. -/

namespace Sys2Proof.Machine

variable {s : State} {baud : BitVec 32}

/-! ### The divisor (R200) -/

theorem divisor_of_legal {fClk b : Nat} (hb : b ≠ 0) (hq : 1 ≤ (fClk / 16 + b / 2) / b)
    (hfits : (fClk / 16 + b / 2) / b - 1 ≤ 0xFFFF) :
    divisor fClk b = some (BitVec.ofNat 16 ((fClk / 16 + b / 2) / b - 1)) := by
  simp only [divisor, if_neg hb, if_neg (Nat.one_le_iff_ne_zero.mp hq), if_neg (Nat.not_lt.mpr hfits)]

theorem divisor_eq_none_iff {fClk b : Nat} :
    divisor fClk b = none ↔
      b = 0 ∨ (fClk / 16 + b / 2) / b = 0 ∨ 0xFFFF < (fClk / 16 + b / 2) / b - 1 := by
  rw [divisor]
  dsimp only
  split_ifs with hb hq hfits
  · exact iff_of_true rfl (.inl hb)
  · exact iff_of_true rfl (.inr (.inl hq))
  · exact iff_of_true rfl (.inr (.inr hfits))
  · exact iff_of_false not_false (not_or.mpr ⟨hb, not_or.mpr ⟨hq, hfits⟩⟩)

/-! ### BEGIN (R201) -/

/-- Setting the three enables is OR with 0x07 in `CTRL`'s layout (R40). -/
theorem Ctrl.word_of_enables (c : Ctrl) :
    { c with rxen := true, txen := true, rxcie := true : Ctrl }.word = c.word ||| 0x07#8 := by
  obtain ⟨rxen, txen, rxcie, txie⟩ := c
  revert rxen txen rxcie txie
  decide

theorem exec_begin_of_enabled (h : s.ctrl.rxen = true) :
    exec (.beginUart baud) s = .next (s.raiseFault .rebegin (encode (.beginUart baud))) := by
  simp only [exec, execBegin, if_pos h]

theorem exec_begin_of_no_divisor (h : s.ctrl.rxen = false) (hd : divisor s.cfg.fClk baud.toNat = none) :
    exec (.beginUart baud) s = .next (s.raiseFault .badBaud (encode (.beginUart baud))) := by
  simp only [exec, execBegin, h, uint32, hd, Bool.false_eq_true, if_false]

theorem exec_begin_of_divisor {d : BitVec 16} (h : s.ctrl.rxen = false)
    (hd : divisor s.cfg.fClk baud.toNat = some d) :
    exec (.beginUart baud) s = .next (s.writeUbrr d).enableUart.advance := by
  simp only [exec, execBegin, h, uint32, hd, Bool.false_eq_true, if_false]

/-- Settles O37: the branches of BEGIN, by RXEN and then by whether the baud has a divisor. -/
theorem beginEffect : Obligations.BeginEffect := by
  refine fun s baud => ⟨fun hoff hb hq hfits => ?_, fun hon hf => ?_, fun hoff hf hbad => ?_⟩
  · refine ⟨_, exec_begin_of_divisor hoff (divisor_of_legal hb hq hfits), ?_, Ctrl.word_of_enables _, rfl⟩
    exact Nat.mod_eq_of_lt (Nat.lt_succ_of_le hfits)
  · rw [exec_begin_of_enabled hon, State.raiseFault_of_no_fault _ _ hf]
  · rw [exec_begin_of_no_divisor hoff (divisor_eq_none_iff.mpr hbad), State.raiseFault_of_no_fault _ _ hf]

end Sys2Proof.Machine

/-! PROOFS. Strings (spec/44_print_byte_string.md): the issue steps, one equation for each branch of the STR micro-step, and
from that the bytes a whole string command sends. -/

namespace Sys2Proof.Machine

variable {s t : State} {sp : Space} {a : Addr16}

/-! ### The issue steps (R211, R212) -/

theorem exec_printString (a : Addr16) (s : State) : exec (.printString a) s = .next (s.startString .data a) := rfl

theorem exec_printPgmString (a : Addr16) (s : State) : exec (.printPgmString a) s = .next (s.startString .pgm a) := rfl

/-- Settles O38: each is `startString` in its own space. -/
theorem stringCommandsStart : Obligations.StringCommandsStart :=
  fun s a => ⟨exec_printString a s, exec_printPgmString a s⟩

/-! ### String bytes and addresses (R72, R73) -/

/-- What a string space reads depends on the two images only. -/
theorem State.memRead_congr (hd : t.data = s.data) (hp : t.pgm = s.pgm) : t.memRead = s.memRead := by
  funext sp a
  cases sp
  · exact congrArg (Memory.imageRead · a) hd
  · exact congrArg (Memory.imageRead · a) hp

theorem nextAddr_eq (a : Addr16) : nextAddr a = BitVec.ofNat 16 ((a.toNat + 1) % 65536) := by
  apply BitVec.eq_of_toNat_eq
  simp [nextAddr]

theorem nextAddr_add_ofNat (a : Addr16) (k : Nat) : nextAddr a + BitVec.ofNat 16 k = a + BitVec.ofNat 16 (k + 1) := by
  rw [nextAddr, BitVec.add_assoc, ← BitVec.ofNat_add, Nat.add_comm 1 k]

/-! ### The STR micro-step (R213) -/

theorem State.microStep_of_cursor (hc : s.fg.cursor = some (sp, a)) : s.microStep = s.strStep sp a := by
  simp only [State.microStep, hc]

theorem State.strStep_of_terminator (h0 : s.memRead sp a = 0#8) : s.strStep sp a = s.complete := if_pos h0

theorem State.strStep_of_full (h0 : s.memRead sp a ≠ 0#8) (hf : ringNext s.cfg.cTx s.tx.head = s.tx.tail) :
    s.strStep sp a = s := by
  simp only [State.strStep, if_neg h0, State.enq_eq_none_iff.mpr hf]

theorem State.strStep_of_enq (h0 : s.memRead sp a ≠ 0#8) (ht : s.enq (s.memRead sp a) = some t) :
    s.strStep sp a = t.setCursor sp (nextAddr a) := by
  simp only [State.strStep, if_neg h0, ht]

/-- The whole effect of a micro-step that sends a byte. -/
theorem State.strStep_of_room (h0 : s.memRead sp a ≠ 0#8) (hf : ringNext s.cfg.cTx s.tx.head ≠ s.tx.tail) :
    s.strStep sp a = { s with
      tx := { s.tx with
        mem := Memory.write s.tx.mem s.tx.head (s.memRead sp a), head := ringNext s.cfg.cTx s.tx.head }
      ctrl := { s.ctrl with txie := if s.tx.head = s.tx.tail then true else s.ctrl.txie }
      fg := { s.fg with cursor := some (sp, nextAddr a) } } := by
  rw [State.strStep_of_enq h0 (State.enq_eq_some_iff.mpr ⟨hf, rfl⟩), State.txie_or_empty]
  rfl

/-- Settles O39: the branches of the micro-step, in the state whose turn has been taken. -/
theorem stringMicroStep : Obligations.StringMicroStep := by
  intro s sp a c hv hm hu hbusy hc hread
  have hstep : step s = .next (s.afterTurn.strStep sp a) := by
    rw [step_eq_agentStep hv hm hu (by simp [State.enabled, hbusy]), agentStep_fg_of_busy (by simpa using hbusy),
      State.microStep_of_cursor (by simpa using hc)]
  have hbyte : s.afterTurn.memRead sp a = c := by
    rw [State.memRead_congr (s := s) (by simp) (by simp)]
    cases sp <;> exact hread.symm
  refine ⟨fun h0 => ?_, fun h0 hfull => ?_, fun h0 hroom => ?_⟩
  · rw [hstep, State.strStep_of_terminator (hbyte.trans h0), State.complete, State.afterTurn_fg]
  · rw [hstep, State.strStep_of_full (by rwa [hbyte]) (by simpa [ringNext] using hfull)]
  · refine ⟨_, hstep, ?_⟩
    rw [State.strStep_of_room (by rwa [hbyte]) (by simpa [ringNext] using hroom), hbyte, nextAddr_eq]
    simp +contextual [Memory.read_write_other, ringNext]

/-! ### A whole string (R213) -/

/-- With room for them all, the bytes from the cursor to the terminator join the transmit queue in order, and the command
completes. -/
theorem microSteps_string (bs : List Byte) (s : State) (a : Addr16) (hh : s.tx.head < s.cfg.cTx)
    (ht : s.tx.tail < s.cfg.cTx) (hr : bs.length ≤ s.txRoom) (hc : s.fg.cursor = some (sp, a))
    (hnz : ∀ b ∈ bs, b ≠ 0#8) (hbytes : ∀ k b, bs[k]? = some b → s.memRead sp (a + BitVec.ofNat 16 k) = b)
    (hend : s.memRead sp (a + BitVec.ofNat 16 bs.length) = 0#8) :
    (microSteps (bs.length + 1) s).txQueue = s.txQueue ++ bs.map some ∧
    (microSteps (bs.length + 1) s).fg = { pc := s.fg.pc + 1, mode := .idle, pending := [], cursor := none } := by
  induction bs generalizing s a with
  | nil =>
    have hmicro : s.microStep = s.complete :=
      (State.microStep_of_cursor hc).trans (State.strStep_of_terminator (by simpa using hend))
    rw [List.length_nil, microSteps, hmicro]
    exact ⟨(List.append_nil _).symm, rfl⟩
  | cons b rest ih =>
    rw [List.length_cons] at hr hend ⊢
    obtain ⟨hb, hrest⟩ := List.forall_mem_cons.mp hnz
    have hread : s.memRead sp a = b := by simpa using hbytes 0 b rfl
    obtain ⟨t, he, hth, htr⟩ := State.enq_of_txRoom b hh ht (by omega)
    have hqueue : t.txQueue = s.txQueue ++ [some b] := State.txQueue_enq hh ht he
    have hframe := State.enq_frame he
    have hcfg : t.cfg = s.cfg := by rw [hframe]
    have htail : t.tx.tail = s.tx.tail := by rw [hframe]
    have hfg : t.fg = s.fg := State.enq_fg he
    have hmem : (t.setCursor sp (nextAddr a)).memRead = s.memRead :=
      State.memRead_congr (by rw [hframe]; rfl) (by rw [hframe]; rfl)
    have hmicro : s.microStep = t.setCursor sp (nextAddr a) :=
      (State.microStep_of_cursor hc).trans (State.strStep_of_enq (by rwa [hread]) (by rwa [hread]))
    have hroom : (t.setCursor sp (nextAddr a)).txRoom = t.txRoom := rfl
    have hsame : (t.setCursor sp (nextAddr a)).txQueue = t.txQueue := rfl
    obtain ⟨hq1, hfg1⟩ := ih (t.setCursor sp (nextAddr a)) (nextAddr a) (by simpa [hcfg] using hth)
      (by simpa [hcfg, htail] using ht) (by omega) rfl hrest
      (fun k c hk => by rw [hmem, nextAddr_add_ofNat]; exact hbytes (k + 1) c hk)
      (by rw [hmem, nextAddr_add_ofNat, hend])
    rw [microSteps, hmicro]
    exact ⟨by simp [hq1, hsame, hqueue], by simp [hfg1, hfg]⟩

/-- Settles O40, by induction on the bytes before the terminator. -/
theorem wholeStringIsEnqueued : Obligations.WholeStringIsEnqueued := by
  intro s sp a bs _ hh ht hr _ hc hnz hbytes hend
  exact microSteps_string bs s a hh ht hr hc hnz hbytes hend

end Sys2Proof.Machine

/-! PROOFS. Integers (spec/45_int_to_ascii.md): the model's digits are Mathlib's `Nat.digits` read backwards, which gives
their value, range and number; then the digit bytes and the two issue steps. -/

namespace Sys2Proof.Machine

variable {m base : Nat} {n : Int}

/-! ### Digit values (R230, R234) -/

/-- With fuel for every digit, the loop puts the digits of `m` on the stack, the most significant on top. -/
theorem pushDigits_eq_reverse_digits (hb : 2 ≤ base) (fuel m : Nat) (st : List Nat) (hm : m < base ^ fuel) :
    pushDigits fuel m base st = (Nat.digits base m).reverse ++ st := by
  induction fuel generalizing m st with
  | zero =>
    obtain rfl : m = 0 := by simpa using hm
    simp [pushDigits]
  | succ fuel ih =>
    rw [pushDigits]
    split
    · next h0 => simp [h0]
    · next h0 =>
      have hdiv : m / base < base ^ fuel := Nat.div_lt_of_lt_mul (by rwa [← Nat.pow_succ'])
      rw [ih _ _ hdiv, Nat.digits_def' hb (Nat.pos_of_ne_zero h0), List.reverse_cons, List.append_assoc,
        List.singleton_append]

@[simp] theorem udigits_zero (base : Nat) : udigits 0 base = [0] := rfl

/-- The stack's capacity is enough in every base. -/
theorem lt_pow_longW (hb : 2 ≤ base) (hm : m < 2 ^ 32) : m < base ^ longW :=
  hm.trans_le (Nat.pow_le_pow_left hb 32)

theorem udigits_eq_reverse_digits (hb : 2 ≤ base) (hm : m < 2 ^ 32) (h0 : m ≠ 0) :
    udigits m base = (Nat.digits base m).reverse := by
  rw [udigits, if_neg h0, pushDigits_eq_reverse_digits hb longW m [] (lt_pow_longW hb hm), List.append_nil]

theorem ofDigits_reverse_udigits (hb : 2 ≤ base) (hm : m < 2 ^ 32) : Nat.ofDigits base (udigits m base).reverse = m := by
  by_cases h0 : m = 0
  · simp [h0]
  · rw [udigits_eq_reverse_digits hb hm h0, List.reverse_reverse, Nat.ofDigits_digits]

theorem lt_base_of_mem_udigits (hb : 2 ≤ base) (hm : m < 2 ^ 32) {d : Nat} (hd : d ∈ udigits m base) : d < base := by
  by_cases h0 : m = 0
  · obtain rfl : d = 0 := by simpa [h0] using hd
    exact Nat.zero_lt_of_lt hb
  · rw [udigits_eq_reverse_digits hb hm h0, List.mem_reverse] at hd
    exact Nat.digits_lt_base hb hd

/-- A number below `base ^ k` has at most `k` digits, and 0 has one. -/
theorem length_udigits_le (hb : 2 ≤ base) (hm : m < 2 ^ 32) {k : Nat} (hk : 1 ≤ k) (hmk : m < base ^ k) :
    (udigits m base).length ≤ k := by
  by_cases h0 : m = 0
  · simpa [h0] using hk
  · rw [udigits_eq_reverse_digits hb hm h0, List.length_reverse]
    exact (Nat.digits_length_le_iff hb m).mpr hmk

theorem head?_udigits_ne_zero (hb : 2 ≤ base) (hm : m < 2 ^ 32) (h0 : m ≠ 0) : (udigits m base).head? ≠ some 0 := by
  rw [udigits_eq_reverse_digits hb hm h0, List.head?_reverse,
    List.getLast?_eq_some_getLast (Nat.digits_ne_nil_iff_ne_zero.mpr h0)]
  exact fun h => Nat.getLast_digit_ne_zero base h0 (Option.some.inj h)

/-- Settles O42: each clause is one of the lemmas on `udigits` above. -/
theorem digitsDenoteTheNumber : Obligations.DigitsDenoteTheNumber := fun m base hm hb =>
  ⟨ofDigits_reverse_udigits hb hm, fun _ => lt_base_of_mem_udigits hb hm,
    List.length_pos_iff.mpr (udigits_ne_nil m base),
    length_udigits_le hb hm (by decide) (lt_pow_longW hb hm),
    fun h0 => by rw [h0, udigits_zero], head?_udigits_ne_zero hb hm⟩

/-! ### Digit bytes (R231) -/

theorem digitChar_toNat (d : Nat) : (digitChar d).toNat = if d < 10 then 0x30 + d else (0x37 + d) % 256 := by
  unfold digitChar
  split
  · exact Nat.mod_eq_of_lt (by omega)
  · exact Nat.mod_mod _ _

/-- Settles O43: `0x37 + d` reaches 256 at digit 201, and stays below 512. -/
theorem digitBytes : Obligations.DigitBytes := by
  intro d hd
  rw [digitChar_toNat]
  split
  · rfl
  · split
    · exact Nat.mod_eq_of_lt (by omega)
    · omega

/-! ### PRINT_INT_BASE (R232) -/

theorem exec_printIntBase_of_base {s : State} {m : BitVec 32} {base : BitVec 8} (hb : 2 ≤ base.toNat) :
    exec (.printIntBase m base) s = .next (s.startBytes (fmtUint m.toNat base.toNat)) :=
  if_neg (Nat.not_lt.mpr hb)

theorem exec_printIntBase_of_bad_base {s : State} {m : BitVec 32} {base : BitVec 8} (hb : base.toNat < 2) :
    exec (.printIntBase m base) s = .next (s.raiseFault .badBase (encode (.printIntBase m base))) :=
  if_pos hb

/-- Settles O44: the two branches on the base. -/
theorem printIntBaseStart : Obligations.PrintIntBaseStart := by
  refine fun s m base => ⟨fun hb => exec_printIntBase_of_base hb, fun hb hf => ?_⟩
  rw [exec_printIntBase_of_bad_base hb, State.raiseFault_of_no_fault _ _ hf]

/-! ### PRINT_INT (R233) -/

theorem exec_printInt (n : BitVec 32) (s : State) : exec (.printInt n) s = .next (s.startBytes (fmtInt n.toInt)) := rfl

theorem fmtInt_of_neg (h : n < 0) : fmtInt n = asciiMinus :: fmtUint (-n).toNat 10 := by
  rw [fmtInt, if_pos h, show n.natAbs = (-n).toNat by omega]

theorem fmtInt_of_nonneg (h : 0 ≤ n) : fmtInt n = fmtUint n.toNat 10 := by
  rw [fmtInt, if_neg (Int.not_lt.mpr h), show n.natAbs = n.toNat by omega]

theorem fmtUint_length (m base : Nat) : (fmtUint m base).length = (udigits m base).length := List.length_map _

/-- A magnitude up to 2^31 has at most ten decimal digits, and the sign is one byte more. -/
theorem fmtInt_length_le (h : n.natAbs ≤ 2 ^ 31) : (fmtInt n).length ≤ 11 := by
  have hdigits : (fmtUint n.natAbs 10).length ≤ 10 := by
    rw [fmtUint_length]
    exact length_udigits_le (by decide) (by omega) (by decide) (by omega)
  unfold fmtInt
  split
  · exact Nat.succ_le_succ hdigits
  · exact Nat.le_succ_of_le hdigits

/-- A 32-bit two's complement number has a magnitude of at most 2^31. -/
theorem natAbs_toInt_le (n : BitVec 32) : n.toInt.natAbs ≤ 2 ^ 31 := by
  have hlow : -2 ^ 31 ≤ n.toInt := BitVec.le_toInt n
  have hhigh : n.toInt < 2 ^ 31 := BitVec.toInt_lt
  omega

/-- Settles O45: the pending bytes are `fmtInt` of the operand. -/
theorem printIntStart : Obligations.PrintIntStart := fun s n =>
  ⟨fmtInt n.toInt, exec_printInt n s, fmtInt_of_neg, fmtInt_of_nonneg,
    List.length_pos_iff.mpr (fmtInt_ne_nil _), fmtInt_length_le (natAbs_toInt_le n)⟩

end Sys2Proof.Machine

/-! PROOFS. Floats (spec/46_float_to_decimal.md): the magnitude of an operand is `f32Num / f32Den`, so the exact integer
part, fraction and rounded fraction are the machine's whole-number ones; then the branches of PRINT_FLOAT, the length of
its output, and where ties fall. -/

namespace Sys2Proof.Machine

variable {x : BitVec 32} {pad : FracPad} {q : Nat} {v : ℚ} {s : State}

/-! ### The exact value (R250) -/

theorem f32Den_eq_two_pow (x : BitVec 32) : ∃ k, f32Den x = 2 ^ k := by
  unfold f32Den
  split
  · exact ⟨149, rfl⟩
  · exact ⟨_, rfl⟩

theorem f32Den_pos (x : BitVec 32) : 0 < f32Den x := by
  obtain ⟨k, hk⟩ := f32Den_eq_two_pow x
  rw [hk]
  exact Nat.two_pow_pos k

/-- The exponent `e - 150` is positive in the numerator's power and negative in the denominator's. -/
theorem f32Value_eq_div (x : BitVec 32) :
    f32Value x = (if f32Sign x then -1 else 1) * ((f32Num x : ℚ) / f32Den x) := by
  unfold f32Value f32Num f32Den
  congr 1
  split
  · rw [zpow_neg, ← div_eq_mul_inv]
    norm_cast
  · have hexp : (f32Exp x : ℤ) - 150 = ((f32Exp x - 150 : ℕ) : ℤ) - ((150 - f32Exp x : ℕ) : ℤ) := by omega
    rw [hexp, zpow_sub₀ two_ne_zero, zpow_natCast, zpow_natCast, ← mul_div_assoc]
    push_cast
    rfl

/-! ### Integer part and fraction (R7, R251) -/

theorem truncQ_neg (v : ℚ) : truncQ (-v) = -truncQ v := by
  unfold truncQ
  rcases lt_trichotomy v 0 with hneg | rfl | hpos
  · rw [if_neg (by linarith), if_pos hneg, Int.floor_neg]
  · rfl
  · rw [if_pos (by linarith), if_neg hpos.not_gt, Int.ceil_neg]

theorem truncQ_of_nonneg (h : 0 ≤ v) : truncQ v = ⌊v⌋ := if_neg h.not_gt

theorem f32Num_div_f32Den_nonneg (x : BitVec 32) : (0 : ℚ) ≤ (f32Num x : ℚ) / f32Den x := by positivity

theorem truncQ_f32Num_div_f32Den (x : BitVec 32) : truncQ ((f32Num x : ℚ) / f32Den x) = (f32Num x / f32Den x : ℕ) := by
  rw [truncQ_of_nonneg (f32Num_div_f32Den_nonneg x), Rat.floor_natCast_div_natCast, Int.natCast_ediv]

theorem specInt_eq_floatInt (x : BitVec 32) : specInt x = floatInt x := by
  rw [specInt, floatInt, f32Value_eq_div]
  split
  · rw [neg_one_mul, truncQ_neg, truncQ_f32Num_div_f32Den]
  · rw [one_mul, truncQ_f32Num_div_f32Den]

theorem abs_neg_sub_truncQ (v : ℚ) : |-v - truncQ (-v)| = |v - truncQ v| := by
  rw [truncQ_neg, Int.cast_neg, neg_sub_neg, abs_sub_comm]

theorem abs_sub_truncQ_of_nonneg (h : 0 ≤ v) : |v - truncQ v| = Int.fract v := by
  rw [truncQ_of_nonneg h, Int.self_sub_floor, abs_of_nonneg (Int.fract_nonneg v)]

/-- The fraction is the division's remainder over the denominator, whatever the sign. -/
theorem specFrac_eq_mod_div (x : BitVec 32) : specFrac x = ((f32Num x % f32Den x : ℕ) : ℚ) / f32Den x := by
  have hmag : specFrac x = |(f32Num x : ℚ) / f32Den x - truncQ ((f32Num x : ℚ) / f32Den x)| := by
    rw [specFrac, specInt, f32Value_eq_div]
    split
    · rw [neg_one_mul, abs_neg_sub_truncQ]
    · rw [one_mul]
  rw [hmag, abs_sub_truncQ_of_nonneg (f32Num_div_f32Den_nonneg x), Int.fract_div_natCast_eq_div_natCast_mod]

/-- `r / d * 1000 + 1/2` over the common denominator `2 * d`. -/
theorem specMilli_eq_floatMilli (x : BitVec 32) : specMilli x = floatMilli x := by
  have hd : (f32Den x : ℚ) ≠ 0 := Nat.cast_ne_zero.mpr (f32Den_pos x).ne'
  have hcommon : specFrac x * 1000 + 1 / 2 =
      ((f32Num x % f32Den x * 2000 + f32Den x : ℕ) : ℚ) / (2 * f32Den x : ℕ) := by
    rw [specFrac_eq_mod_div]
    push_cast
    field_simp
    ring
  rw [specMilli, rhaQ, hcommon, Rat.floor_natCast_div_natCast, floatMilli, Int.natCast_ediv]

theorem floatMilli_le (x : BitVec 32) : floatMilli x ≤ 1000 := by
  have hr : f32Num x % f32Den x < f32Den x := Nat.mod_lt _ (f32Den_pos x)
  exact Nat.le_of_lt_succ (Nat.div_lt_of_lt_mul (by omega))

/-! ### The branches of PRINT_FLOAT (R251, R252, R285) -/

theorem f32Finite_iff : f32Finite x = true ↔ f32Exp x ≠ 255 := bne_iff_ne

theorem fmtFloat_of_not_finite (pad : FracPad) (h : f32Exp x = 255) : fmtFloat pad x = .error .floatNotFinite :=
  if_neg fun hfin => f32Finite_iff.mp hfin h

theorem fmtFloat_of_out_of_range (pad : FracPad) (hfin : f32Exp x ≠ 255)
    (hrange : floatInt x < -2 ^ 31 ∨ 2 ^ 31 - 1 < floatInt x) : fmtFloat pad x = .error .floatIntRange := by
  rw [fmtFloat, if_pos (f32Finite_iff.mpr hfin), if_pos (by omega)]

theorem fmtFloat_of_in_range (pad : FracPad) (hfin : f32Exp x ≠ 255)
    (hlow : -2 ^ 31 ≤ floatInt x) (hhigh : floatInt x ≤ 2 ^ 31 - 1) :
    fmtFloat pad x = .ok (fmtInt (floatInt x) ++ [asciiDot] ++ fracField pad (floatMilli x)) := by
  rw [fmtFloat, if_pos (f32Finite_iff.mpr hfin), if_neg (by omega)]

theorem of_fmtFloat_eq_ok {bs : List Byte} (h : fmtFloat pad x = .ok bs) :
    (floatInt x).natAbs ≤ 2 ^ 31 ∧ bs = fmtInt (floatInt x) ++ [asciiDot] ++ fracField pad (floatMilli x) := by
  unfold fmtFloat at h
  split at h
  · split at h
    · cases h
    · cases h
      exact ⟨by omega, rfl⟩
  · cases h

theorem exec_printFloat_of_ok {bs : List Byte} (h : fmtFloat s.cfg.fracPad x = .ok bs) :
    exec (.printFloat x) s = .next (s.startBytes bs) := by
  simp only [exec, execPrintFloat, h]

theorem exec_printFloat_of_error {r : Fault} (h : fmtFloat s.cfg.fracPad x = .error r) :
    exec (.printFloat x) s = .next (s.raiseFault r (encode (.printFloat x))) := by
  simp only [exec, execPrintFloat, h]

/-- The fraction field as one choice: three digits, or the plain digits. -/
theorem fracField_eq_ite (pad : FracPad) (q : Nat) :
    fracField pad q = if pad = .pad3 ∧ q < 1000 then
      [digitChar (q / 100), digitChar (q / 10 % 10), digitChar (q % 10)] else fmtUint q 10 := by
  cases pad <;> simp [fracField]

/-- Settles O47: the exact integer part and rounded fraction are `floatInt` and `floatMilli`. -/
theorem printFloatStart : Obligations.PrintFloatStart := by
  intro s x hfin hlow hhigh
  rw [specInt_eq_floatInt] at hlow hhigh ⊢
  rw [specMilli_eq_floatMilli, exec_printFloat_of_ok (fmtFloat_of_in_range _ hfin hlow hhigh), fracField_eq_ite]
  simp only [Int.toNat_natCast, Nat.cast_lt_ofNat]
  rfl

/-- Settles O48: the two error branches of `fmtFloat`, with the fault raised on a state without one. -/
theorem printFloatFaults : Obligations.PrintFloatFaults := by
  refine fun s x hf => ⟨fun hexp => ?_, fun hfin hrange => ?_⟩
  · rw [exec_printFloat_of_error (fmtFloat_of_not_finite _ hexp), State.raiseFault_of_no_fault _ _ hf]
  · rw [specInt_eq_floatInt] at hrange
    rw [exec_printFloat_of_error (fmtFloat_of_out_of_range _ hfin hrange), State.raiseFault_of_no_fault _ _ hf]

/-! ### The length of the output (R251) -/

/-- The shortest fraction field. -/
def fracFieldMin : FracPad → Nat
  | .pad3 => 3
  | .unpadded => 1

theorem fracField_length (pad : FracPad) (hq : q ≤ 1000) :
    fracFieldMin pad ≤ (fracField pad q).length ∧ (fracField pad q).length ≤ 4 := by
  have hplain : (fmtUint q 10).length ≤ 4 := by
    rw [fmtUint_length]
    exact length_udigits_le (by decide) (by omega) (by decide) (by omega)
  rw [fracField_eq_ite]
  split
  · next h => simp [h.1, fracFieldMin]
  · next h =>
    refine ⟨?_, hplain⟩
    cases pad with
    | pad3 =>
      have hlarge : ¬ q < 1000 := fun hlt => h ⟨rfl, hlt⟩
      obtain rfl : q = 1000 := by omega
      decide
    | unpadded => exact List.length_pos_iff.mpr (fmtUint_ne_nil q 10)

/-- Settles O50: 1 to 11 bytes of the integer part, the dot, and the fraction field. -/
theorem floatOutputLength : Obligations.FloatOutputLength := by
  intro pad x bs h
  obtain ⟨hrange, rfl⟩ := of_fmtFloat_eq_ok h
  have hint : 0 < (fmtInt (floatInt x)).length := List.length_pos_iff.mpr (fmtInt_ne_nil _)
  have hint' : (fmtInt (floatInt x)).length ≤ 11 := fmtInt_length_le hrange
  obtain ⟨hmin, hmax⟩ := fracField_length pad (floatMilli_le x)
  simp only [List.length_append, List.length_singleton]
  refine ⟨?_, by omega⟩
  calc _ = fracFieldMin pad + 2 := by cases pad <;> rfl
    _ ≤ _ := by omega

/-! ### Ties (R253) -/

/-- For a power of two `d`, `r / d * 1000` is a whole number and a half only at an odd multiple of 1/16: 125
divides `(2 * k + 1) * d`, hence `2 * k + 1`. -/
theorem odd_sixteenths_of_tie {r d k e : Nat} (hd : d = 2 ^ e) (hr : r < d) (h : r * 2000 = (2 * k + 1) * d) :
    ∃ j, j < 16 ∧ j % 2 = 1 ∧ r * 16 = j * d := by
  have hcop : Nat.Coprime 125 d := hd ▸ Nat.Coprime.pow_right e (by decide)
  obtain ⟨j, hj⟩ : 125 ∣ 2 * k + 1 := hcop.dvd_of_dvd_mul_right ⟨r * 16, by omega⟩
  have hrj : r * 16 = j * d := by
    rw [hj, Nat.mul_assoc] at h
    omega
  exact ⟨j, Nat.lt_of_mul_lt_mul_right (a := d) (by omega), by omega, hrj⟩

theorem specFrac_tie_iff (x : BitVec 32) (k : Nat) :
    specFrac x * 1000 = (k : ℚ) + 1 / 2 ↔ f32Num x % f32Den x * 2000 = (2 * k + 1) * f32Den x := by
  have hd : (f32Den x : ℚ) ≠ 0 := Nat.cast_ne_zero.mpr (f32Den_pos x).ne'
  rw [specFrac_eq_mod_div, ← Nat.cast_inj (R := ℚ)]
  push_cast
  field_simp
  constructor <;> intro h <;> linarith

theorem specFrac_eq_sixteenths_iff (x : BitVec 32) (j : Nat) :
    specFrac x = (j : ℚ) / 16 ↔ f32Num x % f32Den x * 16 = j * f32Den x := by
  have hd : (f32Den x : ℚ) ≠ 0 := Nat.cast_ne_zero.mpr (f32Den_pos x).ne'
  rw [specFrac_eq_mod_div, div_eq_div_iff hd (by norm_num), ← Nat.cast_inj (R := ℚ)]
  push_cast
  rfl

/-- Settles O49: to a tie belong the odd `j` with `2 * k + 1 = 125 * j`, in both directions. -/
theorem floatTiesAreOddSixteenths : Obligations.FloatTiesAreOddSixteenths := by
  intro x _
  simp only [specFrac_tie_iff, specFrac_eq_sixteenths_iff]
  constructor
  · rintro ⟨k, hk⟩
    obtain ⟨e, he⟩ := f32Den_eq_two_pow x
    exact odd_sixteenths_of_tie he (Nat.mod_lt _ (f32Den_pos x)) hk
  · rintro ⟨j, -, hodd, hj⟩
    refine ⟨(125 * j - 1) / 2, ?_⟩
    rw [show 2 * ((125 * j - 1) / 2) + 1 = 125 * j by omega, Nat.mul_assoc, ← hj]
    omega

end Sys2Proof.Machine

/-! PROOFS. Refusals, the handlers' order and faults (spec/60_exceptions.md): TX_DRAIN and the receive side's events each
read and write only their own side, and an instruction keeps the marks or raises one fault before it writes anything. -/

namespace Sys2Proof.Machine

variable {s : State} {i : Instr} {b : Byte} {w : CmdWord}

/-! ### Refused words (R282, R284) -/

theorem fgIssue_of_refused {r : RefuseReason} (hw : s.commandWord = some w) (hd : decodeCommand w = .error r) :
    fgIssue s = .next (s.refuse r w) := by
  simp only [fgIssue, hw, hd]

/-- An unmarked run's refusal sets the one mark, to its own reason (R48). -/
theorem State.refuse_of_unmarked (r : RefuseReason) (w : CmdWord) (hm : s.Unmarked) :
    s.refuse r w =
      { s with mark := { fault := none, refused := some r }, hist := s.hist ++ [.refused r w s.fg.pc] } := by
  obtain ⟨hfault, hrefused⟩ := hm
  simp [State.refuse, hfault, hrefused]

/-- Settles O14: FG's turn passes to its issue step, which refuses the word, from the state whose turn has been taken. -/
theorem refusedWordOnlyMarks : Obligations.RefusedWordOnlyMarks := by
  intro s w r hv hm hu hidle hw hd
  have hpc : s.fg.pc < s.program.length := commandWord_lt hw
  have hw' : s.afterTurn.commandWord = some w := by simpa [State.commandWord] using hw
  have hm' : s.afterTurn.Unmarked := by simpa [State.Unmarked] using hm
  rw [step_eq_agentStep hv hm hu (by simp [State.enabled, hpc]), agentStep_fg_of_idle (by simpa using hidle),
    fgIssue_of_refused hw' hd, State.refuse_of_unmarked r w hm']
  simp

/-! ### The handlers' order (R288) -/

/-- `s` with the receive FIFO and the bytes offered of `r`, and the events `es` recorded: all that RX_PUSH, SYNC_HEAD and
SYNC_TAIL write (R49). -/
def State.withReceive (s r : State) (es : List Event) : State :=
  { s with rx := r.rx, line := { s.line with inp := r.line.inp }, hist := s.hist ++ es }

/-- `s` with the transmit FIFO, TXIE, the bytes sent and the marks of `r`, and the events `es` recorded: all that TX_DRAIN
writes (R49). -/
def State.withTransmit (s r : State) (es : List Event) : State :=
  { s with
    tx := r.tx
    ctrl := { s.ctrl with txie := r.ctrl.txie }
    line := { s.line with out := r.line.out }
    mark := r.mark
    hist := s.hist ++ es }

theorem State.withReceive_nil (s r : State) :
    s.withReceive r [] = { s with rx := r.rx, line := { s.line with inp := r.line.inp } } := by
  simp [State.withReceive]

theorem State.withTransmit_nil (s r : State) :
    s.withTransmit r [] = { s with
      tx := r.tx
      ctrl := { s.ctrl with txie := r.ctrl.txie }
      line := { s.line with out := r.line.out }
      mark := r.mark } := by
  simp [State.withTransmit]

@[simp] theorem State.withReceive_self (s : State) : s.withReceive s [] = s := State.withReceive_nil s s

@[simp] theorem State.withTransmit_self (s : State) : s.withTransmit s [] = s := State.withTransmit_nil s s

/-- TX_DRAIN writes the transmit side, and what it writes there does not depend on the receive side. -/
theorem exec_txDrain_withReceive (s : State) :
    ∃ t es, ∀ r es', exec .txDrain (s.withReceive r es') = .next ((s.withReceive r es').withTransmit t es) := by
  cases he : s.txEnabled with
  | false => exact ⟨s, [], fun r es' => by
      rw [State.withTransmit_nil]
      exact exec_txDrain_of_not_enabled he⟩
  | true =>
    by_cases hempty : s.tx.head = s.tx.tail
    · exact ⟨s.setTxie false, [], fun r es' => by
        rw [State.withTransmit_nil]
        exact exec_txDrain_of_empty he hempty⟩
    · cases hb : Memory.read s.tx.mem s.tx.tail with
      | none => exact ⟨s.raiseFault .unwrittenSlot (encode .txDrain), [.fault .unwrittenSlot (encode .txDrain) s.fg.pc],
          fun _ _ => exec_txDrain_of_unwritten he hempty hb⟩
      | some b => exact ⟨s.advanceTxTail.emit b, [.txSent b], fun _ _ => exec_txDrain_of_written he hempty hb⟩

/-- RX_PUSH, SYNC_HEAD and SYNC_TAIL write the receive side, and what they write there does not depend on the transmit
side. -/
theorem exec_handler_withTransmit (hi : i = .rxPush b ∨ i = .syncHead ∨ i = .syncTail) (s : State) :
    ∃ t es, ∀ r es', exec i (s.withTransmit r es') = .next ((s.withTransmit r es').withReceive t es) := by
  rcases hi with rfl | rfl | rfl
  · by_cases he : s.rxEnabled = true ∧ s.line.inp.head? = some b
    · obtain ⟨he, hb⟩ := he
      by_cases hf : ringNext s.cfg.cRx s.rx.head = s.rx.tailView
      · exact ⟨s.takeOffered, [.rxDropped b], fun _ _ => exec_rxPush_of_full he hb hf⟩
      · exact ⟨s.takeOffered.storeRx b, [.rxAccepted b], fun _ _ => exec_rxPush_of_room he hb hf⟩
    · exact ⟨s, [], fun r es' => by
        rw [State.withReceive_nil]
        exact exec_rxPush_of_not_enabled ((not_and_or.mp he).imp_left Bool.eq_false_of_not_eq_true)⟩
  · exact ⟨s.syncHeadView, [], fun r es' => by
      rw [State.withReceive_nil]
      exact exec_syncHead _⟩
  · exact ⟨s.syncTailView, [], fun r es' => by
      rw [State.withReceive_nil]
      exact exec_syncTail _⟩

/-- Settles O59: each of the two writes its own side, whatever the other has written; only the events stand in another
order. -/
theorem handlersCommuteWithTxDrain : Obligations.HandlersCommuteWithTxDrain := by
  intro i b s s1 s2 s3 s4 hi h1 h2 h3 h4
  obtain ⟨rx, es, hrx⟩ := exec_handler_withTransmit hi s
  obtain ⟨tx, es', htx⟩ := exec_txDrain_withReceive s
  have h1' : exec i s = .next (s.withReceive rx es) := by simpa using hrx s []
  have h3' : exec .txDrain s = .next (s.withTransmit tx es') := by simpa using htx s []
  cases h1.symm.trans h1'
  cases h3.symm.trans h3'
  cases h2.symm.trans (htx rx es)
  cases h4.symm.trans (hrx tx es')
  refine ⟨rfl, fun e => ?_⟩
  simp only [State.withReceive, State.withTransmit, List.mem_append]
  exact or_right_comm

/-! ### Faults (R283, R284) -/

@[simp] theorem State.sendByte_mark : (s.sendByte b).mark = s.mark := by
  by_cases hf : ringNext s.cfg.cTx s.tx.head = s.tx.tail
  · rw [State.sendByte_of_full hf]
  · rw [State.sendByte_of_room hf]
    rfl

/-- Every instruction answers a next state, and it either leaves the marks or has only raised a fault with its own word. -/
theorem exec_keeps_mark_or_faults (i : Instr) (s : State) :
    ∃ t, exec i s = .next t ∧ (t.mark = s.mark ∨ ∃ r, t = s.raiseFault r (encode i)) := by
  cases i with
  | available | flush | printString | printPgmString | printInt | syncHead | syncTail => exact ⟨_, rfl, .inl rfl⟩
  | write | printByte => exact ⟨_, rfl, .inl State.sendByte_mark⟩
  | read =>
    by_cases hv : s.rx.headView = s.rx.tail
    · exact ⟨_, exec_read_of_none_visible hv, .inl rfl⟩
    · cases hb : Memory.read s.rx.mem s.rx.tail with
      | none => exact ⟨_, exec_read_of_unwritten hv hb, .inr ⟨_, rfl⟩⟩
      | some b => exact ⟨_, exec_read_of_visible hv hb, .inl rfl⟩
  | beginUart baud =>
    cases hen : s.ctrl.rxen with
    | true => exact ⟨_, exec_begin_of_enabled hen, .inr ⟨_, rfl⟩⟩
    | false =>
      cases hd : divisor s.cfg.fClk baud.toNat with
      | none => exact ⟨_, exec_begin_of_no_divisor hen hd, .inr ⟨_, rfl⟩⟩
      | some d => exact ⟨_, exec_begin_of_divisor hen hd, .inl rfl⟩
  | printIntBase m base =>
    rcases Nat.lt_or_ge base.toNat 2 with hb | hb
    · exact ⟨_, exec_printIntBase_of_bad_base hb, .inr ⟨_, rfl⟩⟩
    · exact ⟨_, exec_printIntBase_of_base hb, .inl rfl⟩
  | printFloat x =>
    cases hx : fmtFloat s.cfg.fracPad x with
    | error r => exact ⟨_, exec_printFloat_of_error hx, .inr ⟨r, rfl⟩⟩
    | ok bs => exact ⟨_, exec_printFloat_of_ok hx, .inl rfl⟩
  | rxPush b =>
    obtain ⟨r, es, h⟩ := exec_handler_withTransmit (b := b) (.inl rfl) s
    exact ⟨s.withReceive r es, by simpa using h s [], .inl rfl⟩
  | txDrain =>
    cases he : s.txEnabled with
    | false => exact ⟨_, exec_txDrain_of_not_enabled he, .inl rfl⟩
    | true =>
      by_cases hempty : s.tx.head = s.tx.tail
      · exact ⟨_, exec_txDrain_of_empty he hempty, .inl rfl⟩
      · cases hb : Memory.read s.tx.mem s.tx.tail with
        | none => exact ⟨_, exec_txDrain_of_unwritten he hempty hb, .inr ⟨_, rfl⟩⟩
        | some b => exact ⟨_, exec_txDrain_of_written he hempty hb, .inl rfl⟩

/-- Settles O15: a fault mark that was not there is the one the instruction raised. -/
theorem faultingInstructionOnlyMarks : Obligations.FaultingInstructionOnlyMarks := by
  intro i s t r hf h hr
  obtain ⟨t', h', hmark⟩ := exec_keeps_mark_or_faults i s
  cases h.symm.trans h'
  rcases hmark with hmark | ⟨r', rfl⟩
  · simp [hmark, hf] at hr
  · obtain rfl : r' = r := by simpa [hf] using hr
    exact State.raiseFault_of_no_fault r' (encode i) hf

end Sys2Proof.Machine

/-! PROOFS. Reset, the end of a run and hazards (spec/70_reset_and_hazards.md): the invariant at a clean entry, the turns
that change nothing there and in a final state, READs in a row, and the WRITE that holds before BEGIN. -/

namespace Sys2Proof.Machine

variable {s t : State} {b : Byte}

/-! ### Counted READs (R325) -/

/-- The clauses of the invariant that READ rests on. The whole invariant also bounds `fg.pc`, which READs in a row pass. -/
structure State.RxSound (s : State) : Prop where
  indices : s.IndicesInRange
  span : s.RxSpan
  written : s.RxWritten

theorem State.Inv.rxSound (hs : s.Inv) : s.RxSound := ⟨hs.indices, hs.rxSpan, hs.rxWritten⟩

/-- READ of a visible byte takes it off the front of the queue, and leaves one visible byte less. -/
theorem exec_read_takes_front (hs : s.RxSound) (hvis : 0 < ringDist s.cfg.cRx s.rx.tail s.rx.headView) :
    ∃ b t, exec .read s = .next t ∧ t.res = b.setWidth 16 ∧ s.rxQueue = some b :: t.rxQueue ∧ t.RxSound ∧
      ringDist t.cfg.cRx t.rx.tail t.rx.headView + 1 = ringDist s.cfg.cRx s.rx.tail s.rx.headView := by
  obtain ⟨hi, hspan, hwritten⟩ := hs
  have hv : s.rx.headView ≠ s.rx.tail := fun e => by simp [e] at hvis
  have hcount := State.trueCount_eq hi hspan
  obtain ⟨b, hb⟩ := State.visible_written hi hspan hwritten hv
  have hi' := hi
  obtain ⟨hhead, htail, hview, -, htx⟩ := hi'
  have hne : s.rx.tail ≠ s.rx.head := fun e => by
    rw [← e, ringDist_self] at hcount
    omega
  have hqueue := State.rxQueue_advance hhead htail hne
  rw [hb] at hqueue
  have hmove : RxMove s ((s.writeRes (byteResult b)).setRxTail (ringNext s.cfg.cRx s.rx.tail)).advance (.agent .fg) :=
    .take _ (fun _ => ⟨1, hvis, rfl⟩) rfl rfl
  obtain ⟨hhead', htail', hview', htview'⟩ := hmove.indices hi
  refine ⟨b, _, exec_read_of_visible hv hb, rfl, hqueue, ⟨?_, hmove.rxSpan rfl hi hspan, ?_⟩, ?_⟩
  · exact ⟨hhead', htail', hview', htview', htx⟩
  · rw [State.rxWritten_iff, hqueue] at hwritten
    exact State.rxWritten_iff.mpr (List.forall_mem_cons.mp hwritten).2
  · exact ringDist_next_left htail hview hv.symm

/-- Each of as many READs as there are visible bytes returns the next byte of the queue. -/
theorem runExec_reads_return_queue {j : Nat} (hs : s.RxSound) (hj : j < ringDist s.cfg.cRx s.rx.tail s.rx.headView) :
    ∃ t u b, runExec (List.replicate j .read) s = .next t ∧ exec .read t = .next u ∧
      s.rxQueue[j]? = some (some b) ∧ u.res = b.setWidth 16 := by
  induction j generalizing s with
  | zero =>
    obtain ⟨b, t, hread, hres, hqueue, -, -⟩ := exec_read_takes_front hs hj
    exact ⟨s, t, b, rfl, hread, by simp [hqueue], hres⟩
  | succ j ih =>
    obtain ⟨b, t, hread, -, hqueue, ht, hvis⟩ := exec_read_takes_front hs (Nat.zero_lt_of_lt hj)
    obtain ⟨v, u, b', hrun, hlast, hb', hres⟩ := ih ht (by omega)
    exact ⟨v, u, b', (runExec_cons_of_next hread).trans hrun, hlast, by rw [hqueue]; exact hb', hres⟩

/-- Settles O25, by induction on the READs that go before. -/
theorem countedReadsReturnBytes : Obligations.CountedReadsReturnBytes :=
  fun _ _ hs hj => runExec_reads_return_queue hs.rxSound hj

/-! ### WRITE on a full FIFO before BEGIN (R322) -/

/-- A turn of FG at a WRITE with the FIFO full only takes the turn (R181, log 2). -/
theorem step_fg_of_full_write {w : CmdWord} (hv : s.cfg.valid = true) (hm : s.Unmarked) (hu : s.nextTurn = .agent .fg)
    (hidle : s.fg.mode = .idle) (hw : s.program[s.fg.pc]? = some w) (hd : decodeCommand w = .ok (.write b))
    (hfull : ringNext s.cfg.cTx s.tx.head = s.tx.tail) : step s = .next s.afterTurn := by
  obtain ⟨hstep, -⟩ := stepRunsDecodedCommand s w _ hv hm hu hidle hw hd
  rw [hstep, exec_write, State.sendByte_of_full (by simpa using hfull)]

/-- Settles O36: the turns of FG and TXC only pass, and no other turn writes one of these fields. -/
theorem writeBeforeBeginHoldsForEver : Obligations.WriteBeforeBeginHoldsForEver := by
  intro s t w b hidle hw hd hfull htxen h
  obtain ⟨hv, hf, hr, -, hmove⟩ := step_moves h
  have hm : s.Unmarked := ⟨hf, hr⟩
  match hu : s.nextTurn with
  | .agent .fg =>
    rw [step_fg_of_full_write hv hm hu hidle hw hd hfull] at h
    cases h
    simp [State.Unmarked, hf, hr]
  | .agent .txc =>
    rw [disabledAgentHasNoStep s hv hm (.inr (.inr ⟨hu, .inl htxen⟩))] at h
    cases h
    simp [State.Unmarked, hf, hr]
  | .agent .rxp => rw [hmove.rxp_frame hu]; simp [State.Unmarked, hf, hr]
  | .agent .sh => rw [hmove.sh_frame hu]; simp [State.Unmarked, hf, hr]
  | .agent .st => rw [hmove.st_frame hu]; simp [State.Unmarked, hf, hr]
  | .host m => rw [hmove.host_frame hu]; simp [State.Unmarked, hf, hr]

/-! ### The synchronisers with nothing to copy (R164, R165) -/

/-- Where the view holds the head already, SYNC_HEAD writes nothing new. -/
theorem State.syncHeadView_of_synced (hg : s.GrayHeld) (hv : s.rx.headView = s.rx.head) : s.syncHeadView = s := by
  obtain ⟨hhead, -, hsync, -⟩ := hg
  have hsame : List.replicate s.cfg.syncStages s.rx.headGray = s.rx.headSync := by rw [hsync, hhead, hv]
  rw [State.syncHeadView, hsame, ← hv]

/-- Where the view holds the tail already, SYNC_TAIL writes nothing new. -/
theorem State.syncTailView_of_synced (hg : s.GrayHeld) (hv : s.rx.tailView = s.rx.tail) : s.syncTailView = s := by
  obtain ⟨-, htail, -, hsync⟩ := hg
  have hsame : List.replicate s.cfg.syncStages s.rx.tailGray = s.rx.tailSync := by rw [hsync, htail, hv]
  rw [State.syncTailView, hsame, ← hv]

/-! ### Reset (R310, R311, R312, R316) -/

/-- Settles O7: each value is the one reset writes. -/
theorem resetValues : Obligations.ResetValues := by
  refine ⟨fun c program data pgm inp ready sched turns => ?_, by decide⟩
  simp [State.resetWith, Memory.read, Ctrl.word, State.readRes]

section Reset

variable (c : Config) (program : List CmdWord) (data pgm : Memory) (inp : List Byte) (ready : Bool) (sched : List Turn)
  (turns : Nat)

theorem State.resetWith_grayHeld : (State.resetWith c program data pgm inp ready sched turns).GrayHeld :=
  ⟨rfl, rfl, rfl, rfl⟩

theorem State.resetWith_inv (hv : c.valid = true) (hdata : Memory.imageWf data = true)
    (hpgm : Memory.imageWf pgm = true) : (State.resetWith c program data pgm inp ready sched turns).Inv := by
  obtain ⟨hindices, hspan⟩ := rxIndicesKeepTheirSpan.1 c program data pgm inp ready sched turns hv
  have hordered : (State.resetWith c program data pgm inp ready sched turns).RxOrdered := by
    simp [State.RxOrdered, State.rxQueue, State.resetWith]
  exact
    { valid := hv
      indices := hindices
      rxSpan := hspan
      txArmed := nonEmptyTransmitFifoIsArmed.1 c program data pgm inp ready sched turns
      rxWritten := hordered.rxWritten
      txWritten := State.txWritten_iff.mpr (by simp [State.txQueue, State.resetWith])
      memories := ⟨rfl, rfl, hdata, hpgm⟩
      gray := State.resetWith_grayHeld c program data pgm inp ready sched turns
      fgUse := ⟨fun _ => ⟨rfl, rfl⟩, nofun⟩
      pc := ⟨Nat.zero_le _, nofun⟩
      enables := ⟨rfl, rfl⟩
      oneMark := .inl rfl
      outIsSent := rfl
      rxOrdered := hordered }

end Reset

/-- Settles O9: whatever is supplied from outside, reset empties every FIFO and history. -/
theorem cleanEntryMeetsInvariant : Obligations.CleanEntryMeetsInvariant := State.resetWith_inv

/-- Settles O8: the reference parameters are valid, and an image that lists nothing is canonical. -/
theorem resetMeetsInvariant : Obligations.ResetMeetsInvariant :=
  cleanEntryMeetsInvariant Config.reference [] [] [] [] true [] 0 (by decide) rfl rfl

/-- Settles O10: RXP and TXC are not enabled, and the synchronisers have nothing to copy. -/
theorem afterResetOnlyTheForegroundActs : Obligations.AfterResetOnlyTheForegroundActs := by
  intro c program data pgm inp ready sched turns a s hv ha hu
  have hm : s.Unmarked := ⟨rfl, rfl⟩
  have hg : s.afterTurn.GrayHeld := by
    simpa [State.GrayHeld] using State.resetWith_grayHeld c program data pgm inp ready sched turns
  cases a with
  | fg => exact absurd rfl ha
  | rxp | txc => exact step_eq_afterTurn_of_disabled hv hm hu rfl
  | sh =>
    rw [step_eq_agentStep hv hm hu rfl]
    exact congrArg _ (State.syncHeadView_of_synced hg (by simp [s, State.resetWith]))
  | st =>
    rw [step_eq_agentStep hv hm hu rfl]
    exact congrArg _ (State.syncTailView_of_synced hg (by simp [s, State.resetWith]))

/-! ### The end of a run (R315) -/

/-- Settles O60: FG is IDLE at the end of its program, and TXIE is 0. -/
theorem finalStateIsQuiet : Obligations.FinalStateIsQuiet := by
  rintro s hv ⟨⟨hpc, hidle⟩, ⟨-, htxie⟩, hm⟩ hu
  refine disabledAgentHasNoStep s hv hm ?_
  rcases hu with hu | hu
  · exact .inl ⟨hu, hidle, hpc.ge⟩
  · exact .inr (.inr ⟨hu, .inr (.inl htxie)⟩)

end Sys2Proof.Machine
